-- ==== Sys2Proof/Word.lean ====
section
/-! DEFINITION. The words of the HCI packet framing engine (00_scope.md R8: all values unsigned, a byte is 8 bits) and
the opaque tokens its collaborators own. -/

namespace Sys2Proof

/-- A byte (R8). -/
abbrev Byte := BitVec 8

/-- The 11-bit request word of 30_encoding.md R71. -/
abbrev ReqWord := BitVec 11

/-- A byte count: 17 bits, `CNT_W` of 00_scope.md R6 (D11). -/
abbrev Count := BitVec 17

/-- A payload length: 16 bits, `LEN_W` of 00_scope.md R6 (D17). -/
abbrev Len16 := BitVec 16

/-- An opaque buffer handle (30_encoding.md R73). DESIGN CHOICE (log 9): the token is a number; the engine only
compares handles. -/
structure BufHandle where
  id : Nat
deriving DecidableEq, Repr

/-- An upward dispatch callback (10_state.md R25), opaque. DESIGN CHOICE (log 9). -/
structure Callback where
  id : Nat
deriving DecidableEq, Repr

/-- The upper layer's result type (60_exceptions.md R132, D36), opaque. DESIGN CHOICE (log 9). -/
structure UpperResult where
  val : Nat
deriving DecidableEq, Repr

/-- The INIT configuration (00_scope.md R7, D35): interface, channel and baud, passed to `Acquire` unchanged and read by
no rule. DESIGN CHOICE (log 9): each is a token. -/
structure Cfg where
  iface   : Nat
  channel : Nat
  baud    : Nat
deriving DecidableEq, Repr

/-- The answer of a collaborator, or a completion status (00_scope.md R12, 30_encoding.md R73). -/
inductive Status where
  | ok
  | fail
deriving DecidableEq, Repr

/-- The byte spaces the engine writes (20_memory.md R37). The engine's own two are those of one instance: they carry the
number of re-instantiations before it, so that each instance's unwritten bytes are a draw of their own (10_state.md R33;
log 6). -/
inductive Space where
  | scr (resets : Nat)
  | full (resets : Nat)
  | buf
deriving DecidableEq, Repr

end Sys2Proof
end

