-- ==== Sys2Proof/Config.lean ====
section
/-! DEFINITION. The static parameters of an instance (00_scope.md R6) and the free value of a byte nothing has written
(10_state.md R33, D13). The two parameters the spec leaves OPEN and the free bytes are constants without a body: no
proof can learn a value of theirs. -/

namespace Sys2Proof

/-- The parameters of R6. They are fixed when an instance is built and no step changes them (log 7). -/
structure Params where
  /-- `ACL_MAX`, OPEN, an integer in 0..65534 (D6). -/
  aclMax     : Fin 65535
  /-- `EVT_GUARD_EN` (D7). -/
  evtGuardEn : Bool
  /-- `EVT_MAX`, OPEN, an integer in 0..255, read only under the guard (D7). -/
  evtMax     : BitVec 8
  /-- `SCO_LEGACY` (D8). -/
  scoLegacy  : Bool
deriving DecidableEq, Repr

/-- `ACL_MAX` of the instance that `State.reset` describes: OPEN, so it has no body (R6, D6). -/
opaque Config.aclMax : Fin 65535

/-- `EVT_MAX` of the instance that `State.reset` describes: OPEN, so it has no body (R6, D7). -/
opaque Config.evtMax : BitVec 8

/-- The value of a region byte that nothing has written: the spec's draw "any value" (R33, I10), a new
one at each re-instantiation. FREE VALUE (log 6). -/
opaque Config.unspecifiedByte : Space → Nat → Byte

/-- The parameters of `State.reset`: the open two left open, the two Booleans at the spec's defaults (R6). -/
def Config.params : Params :=
  { aclMax := Config.aclMax, evtGuardEn := false, evtMax := Config.evtMax, scoLegacy := false }

/-- `SCRATCH_SIZE` (R6, 10_state.md R23). -/
def Config.scratchSize : Nat := 5

end Sys2Proof
end

