-- ==== Sys2Proof/Syntax.lean ====
section
/-! DEFINITION. The instructions: one constructor per row of opcode_table.json, and the two forms in which an
instruction reaches the engine (a request word, a byte of the serial stream). -/

namespace Sys2Proof

/-- One constructor per row of the opcode table. The `req11` rows are the requests of 30_encoding.md R71 and R72; their
side operands (R73) are not bits of the word and stand in `State.port`. The `marker8` rows are the classes of a wire
byte (R60). -/
inductive Instr where
  /-- INIT, word 0x000 (R125). -/
  | init
  /-- RX_BYTE, word `0x100 | b` (R86). -/
  | rxByte (b : Byte)
  /-- SEND, word `0x200 | kind` (R106). -/
  | send (kind : Byte)
  /-- TX_DONE, word 0x300 (R114). -/
  | txDone
  /-- HANDOFF, word 0x400 (R118). -/
  | handoff
  /-- op 0b101, any data (R72). -/
  | reservedOp5 (d : Byte)
  /-- op 0b110, any data (R72). -/
  | reservedOp6 (d : Byte)
  /-- op 0b111, any data (R72). -/
  | reservedOp7 (d : Byte)
  /-- Wire byte 0x01, Command (R60). -/
  | markerCmd
  /-- Wire byte 0x02, ACL-Data (R60). -/
  | markerAcl
  /-- Wire byte 0x03, Synchronous-Data (R60). -/
  | markerSync
  /-- Wire byte 0x04, Event (R60). -/
  | markerEvt
  /-- Any other wire byte: 0x00, 0x05 to 0xFF (R60). -/
  | markerOther (b : Byte)
deriving DecidableEq, Repr

/-- What is presented to the engine: an 11-bit request word (R71), or one byte of the serial stream (20_memory.md R39),
which the channel's callback presents as one RX_BYTE (60_exceptions.md R137; DEDUCED, log 14). -/
inductive Code where
  | word (w : ReqWord)
  | wire (b : Byte)
deriving DecidableEq, Repr

end Sys2Proof
end

