-- ==== Sys2Proof/WellFormed.lean ====
section
/-! DEFINITION. Well-formed instructions. The only operand a row restricts is the byte of MARKER_OTHER, which matches
only when no row above it does (opcode_table.json; 30_encoding.md R60). -/

namespace Sys2Proof

/-- A byte no marker row but MARKER_OTHER matches (R60): 0x00 and 0x05 to 0xFF. -/
def otherMarker (b : Byte) : Bool := b != 0x01 && b != 0x02 && b != 0x03 && b != 0x04

/-- The instruction is one the table's rows give. -/
def Instr.wellFormed : Instr → Bool
  | .init => true
  | .rxByte _ => true
  | .send _ => true
  | .txDone => true
  | .handoff => true
  | .reservedOp5 _ => true
  | .reservedOp6 _ => true
  | .reservedOp7 _ => true
  | .markerCmd => true
  | .markerAcl => true
  | .markerSync => true
  | .markerEvt => true
  | .markerOther b => otherMarker b

end Sys2Proof
end

