-- ==== Sys2Proof/Decode.lean ====
section
/-! DEFINITION. Decoding: request words (30_encoding.md R71, R72) and wire bytes (R60), total, rejecting by name; then
the encoder, written from the same tables; then the opcode table's rows as data. -/

namespace Sys2Proof

/-- Why a request word is no instruction. -/
inductive DecodeError where
  /-- INIT, TX_DONE or HANDOFF with data other than 0x00 (R72); the op code is kept. -/
  | nonzeroData (op : BitVec 3)
deriving DecidableEq, Repr

/-- `op = word[10:8]` (R71). -/
def opOf (w : ReqWord) : BitVec 3 := w.extractLsb' 8 3

/-- `data = word[7:0]` (R71). -/
def dataOf (w : ReqWord) : Byte := w.extractLsb' 0 8

/-- `{op[10:8], data[7:0]}` (R71). -/
def mkWord (op : BitVec 3) (data : Byte) : ReqWord := op ++ data

/-- A word whose data must be 0x00 (R71, R72). -/
def zeroDataOnly (op : BitVec 3) (data : Byte) (i : Instr) : Except DecodeError Instr :=
  if data = 0x00 then .ok i else .error (.nonzeroData op)

/-- The request of an 11-bit word: the op field alone tells its operands (R71, R72, R74). -/
def decodeWord (w : ReqWord) : Except DecodeError Instr :=
  let data := dataOf w
  match (opOf w).toNat with
  | 0 => zeroDataOnly 0 data .init
  | 1 => .ok (.rxByte data)
  | 2 => .ok (.send data)
  | 3 => zeroDataOnly 3 data .txDone
  | 4 => zeroDataOnly 4 data .handoff
  | 5 => .ok (.reservedOp5 data)
  | 6 => .ok (.reservedOp6 data)
  | _ => .ok (.reservedOp7 data)

/-- The class of a wire byte, by its whole 8-bit value (R60). -/
def decodeMarker (b : Byte) : Instr :=
  if b = 0x01 then .markerCmd
  else if b = 0x02 then .markerAcl
  else if b = 0x03 then .markerSync
  else if b = 0x04 then .markerEvt
  else .markerOther b

/-- The instruction presented. -/
def decode : Code → Except DecodeError Instr
  | .word w => decodeWord w
  | .wire b => .ok (decodeMarker b)

/-- The word or wire byte of an instruction (R60, R71, R72). -/
def encode : Instr → Code
  | .init => .word (mkWord 0 0x00)
  | .rxByte b => .word (mkWord 1 b)
  | .send kind => .word (mkWord 2 kind)
  | .txDone => .word (mkWord 3 0x00)
  | .handoff => .word (mkWord 4 0x00)
  | .reservedOp5 d => .word (mkWord 5 d)
  | .reservedOp6 d => .word (mkWord 6 d)
  | .reservedOp7 d => .word (mkWord 7 d)
  | .markerCmd => .wire 0x01
  | .markerAcl => .wire 0x02
  | .markerSync => .wire 0x03
  | .markerEvt => .wire 0x04
  | .markerOther b => .wire b

/-- What the table's numbering presents: up to 8 bits is a `marker8` row's wire byte, more is a `req11` row's request
word. DESIGN CHOICE (log 15): the engine stores no instructions, so this is only how the table's bits are read. -/
def codeOfTable (nbits w : Nat) : Code :=
  if nbits ≤ 8 then .wire (BitVec.ofNat 8 w) else .word (BitVec.ofNat 11 w)

/-- The instruction the decoder reads from a table word: none where a bit lies outside the form, or the decoder
rejects. -/
def decodeTableWord (nbits w : Nat) : Option Instr :=
  if w < (if nbits ≤ 8 then 256 else 2048) then (decode (codeOfTable nbits w)).toOption else none

/-- A row of opcode_table.json: its width in bits and its match and mask. -/
structure TableRow where
  bits    : Nat
  pattern : Nat
  mask    : Nat
deriving DecidableEq, Repr

/-- The row an instruction belongs to, written out from opcode_table.json. -/
def tableRow : Instr → TableRow
  | .init => ⟨11, 0x000, 0x7FF⟩
  | .rxByte _ => ⟨11, 0x100, 0x700⟩
  | .send _ => ⟨11, 0x200, 0x700⟩
  | .txDone => ⟨11, 0x300, 0x7FF⟩
  | .handoff => ⟨11, 0x400, 0x7FF⟩
  | .reservedOp5 _ => ⟨11, 0x500, 0x700⟩
  | .reservedOp6 _ => ⟨11, 0x600, 0x700⟩
  | .reservedOp7 _ => ⟨11, 0x700, 0x700⟩
  | .markerCmd => ⟨8, 0x01, 0xFF⟩
  | .markerAcl => ⟨8, 0x02, 0xFF⟩
  | .markerSync => ⟨8, 0x03, 0xFF⟩
  | .markerEvt => ⟨8, 0x04, 0xFF⟩
  | .markerOther _ => ⟨8, 0x00, 0x00⟩

/-- A code has the row's width and its fixed bits. -/
def Code.matchesRow : Code → TableRow → Bool
  | .word w, r => r.bits == 11 && w.toNat &&& r.mask == r.pattern
  | .wire b, r => r.bits == 8 && b.toNat &&& r.mask == r.pattern

end Sys2Proof
end

