-- ==== Sys2Proof/Machine/State.lean ====
section
/-! DEFINITION. The state: the engine's record (10_state.md R15), the instance's static parameters (00_scope.md R6), the
outbound frame buffers (20_memory.md R37), and the transaction interface as data (requests, answers, outputs). -/

namespace Sys2Proof.Machine

/-- A byte region (20_memory.md R36): the bytes written so far, (index, byte), indices strictly rising. An index that is
not listed has not been written and holds the spec's "any value" (log 6). -/
abbrev Memory := List Host.Cell

/-- The canonical form: indices strictly rising, so that equal regions are equal lists. -/
abbrev Memory.wf (m : Memory) : Prop := m.Pairwise (fun x y => x.1 < y.1)

/-- The detector states (10_state.md R18). -/
inductive DetState where
  /-- DetectMarker, encoded 0. -/
  | dm
  /-- DetectHeader, encoded 1. -/
  | dh
  /-- PacketInProgress, encoded 2. -/
  | pip
  /-- The encoding 3, which no rule writes. -/
  | unused
deriving DecidableEq, Repr

/-- The results of requests (60_exceptions.md R132). -/
inductive Result where
  | ok
  | alreadyInitialized
  | transportError
  | outOfMemory
  | upper (v : UpperResult)
deriving DecidableEq, Repr

/-- Why a request is refused: 00_scope.md R13's list, and the `Alloc` answer that is the handle of an outstanding buffer (I15; log 10). -/
inductive RefuseReason where
  /-- op 5, 6 or 7 (R72). -/
  | reservedOp (op : BitVec 3)
  /-- INIT, TX_DONE or HANDOFF with non-zero data (R72). -/
  | nonzeroData (op : BitVec 3)
  /-- R107. -/
  | sendBeforeInit
  /-- R115. -/
  | unknownCompletion
  /-- R126. -/
  | initWithoutCallback
  /-- R105. -/
  | rxDuringDeliver
  /-- I15; DESIGN CHOICE (log 10). -/
  | allocNotFresh
deriving DecidableEq, Repr

/-- The output events (00_scope.md R11). `Write`'s completion handler is always the release, so it is not an argument. -/
inductive Event where
  /-- The upward dispatch callback `target` (R101); `target` is `cb` (log 21). -/
  | deliver (target : Option Callback) (kind : Byte) (bytes : List Byte) (count : Count)
  /-- The upper-layer receive entry point (R120). -/
  | receive (kind : Byte) (bytes : List Byte) (len : Nat)
  /-- The asynchronous write of `len` bytes of `BUF(h)` with completion context `ctx` (R111). -/
  | write (h : BufHandle) (len : Nat) (ctx : BufHandle)
  /-- R108. -/
  | alloc (n : Nat)
  /-- R112, R114, R121. -/
  | free (h : BufHandle)
  /-- R127. -/
  | acquire (cfg : Cfg)
deriving DecidableEq, Repr

/-- What leaves the engine (log 16): an output event, the result a request returns, the refusal of a request. -/
inductive Output where
  | event (e : Event)
  | result (r : Result)
  | refused (why : RefuseReason)
deriving DecidableEq, Repr

/-- The side operands of 30_encoding.md R73, all forms together; a request uses its own. -/
structure SideOperands where
  /-- INIT. -/
  cfg     : Cfg
  /-- INIT: a callback reference or none. -/
  cb      : Option Callback
  /-- SEND: the payload bytes. -/
  payload : List Byte
  /-- SEND: `len`, 16 bits. -/
  len     : Len16
  /-- TX_DONE: the completion context. -/
  h       : BufHandle
  /-- TX_DONE: the transport's status, read by no rule (R114). -/
  status  : Status
  /-- HANDOFF: the buffer's handle. -/
  hb      : BufHandle
  /-- HANDOFF: the bytes of `HB` (20_memory.md R37). -/
  hbBytes : List Byte
  /-- HANDOFF: `n`, 17 bits (43_handoff.md R118). DESIGN CHOICE (log 23): all 17 bits, 65537 and more included, where D34
  also says that `n - 1` is at most 65535. -/
  n       : Count
deriving DecidableEq, Repr

/-- The collaborators' answers to one request, free inputs of the step (00_scope.md R12; log 2). -/
structure Answers where
  /-- A handle or `null`. -/
  alloc   : Option BufHandle
  write   : Status
  acquire : Status
  receive : UpperResult
deriving DecidableEq, Repr

/-- A request the `Deliver` consumer issues before `Deliver` returns (41_receive.md R105). -/
structure Call where
  code : Code
  ops  : SideOperands
  ans  : Answers
deriving DecidableEq, Repr

/-- What accompanies the request being run: operands, answers, and what the `Deliver` consumer issues if the request
dispatches a packet. -/
structure Port where
  ops      : SideOperands
  ans      : Answers
  consumer : List Call
deriving DecidableEq, Repr

/-- A request or wire byte still to be taken. -/
structure Request where
  code : Code
  port : Port
deriving DecidableEq, Repr

/-- The machine's state. -/
structure State where
  /-- The instance's static parameters (00_scope.md R6); no step writes them (log 7). -/
  params  : Params
  /-- Lifecycle flag (10_state.md R17). -/
  init    : Bool
  /-- Detector state (R18). -/
  st      : DetState
  /-- Marker of the packet in flight (R19). -/
  kind    : Byte
  /-- Running byte count (R20). -/
  cnt     : Count
  /-- Expected marker-free length (R21). -/
  exp     : Count
  /-- `SCR`, the scratch header region (R23). -/
  scr     : Memory
  /-- `FULL`, the full-size packet region (R24). -/
  full    : Memory
  /-- Upward dispatch callback (R25). -/
  cb      : Option Callback
  /-- Outstanding outbound buffers (R26): a set, kept as a list with handles strictly rising. -/
  out     : List BufHandle
  /-- The refusal mark (R35). -/
  refused : Bool
  /-- `BUF(h)` of every outbound buffer that has not been freed or answered anew (20_memory.md R37; log 18), handles
  strictly rising. After a re-instantiation it may hold buffers the engine no longer tracks (log 17). -/
  bufs    : List (BufHandle × Memory)
  /-- How often the engine has been re-instantiated (the model's own field, log 6): which draw the unwritten bytes of
  `SCR` and `FULL` are. -/
  resets  : Nat
  /-- Operands and answers of the request being run (the model's own field, log 2). -/
  port    : Port
  /-- Requests still to be taken, in the run's order (the model's own field, log 4). -/
  pending : List Request
  /-- Outputs so far, oldest first (the model's own field, log 16). -/
  trace   : List Output
deriving DecidableEq, Repr

/-- Faults: the machine stops. -/
inductive Fault where
  /-- A region access whose index is not below the region's size (20_memory.md R36, I12); a payload or hand-off buffer
  shorter than its declared length (log 13). Raised by RX_BYTE, the marker rows, SEND and HANDOFF. Safe. -/
  | regionBounds
  /-- The detector state holds the unused encoding 3 (41_receive.md R88, I11). Raised by RX_BYTE and the marker rows.
  Safe. -/
  | unusedDetState
  /-- DetectHeader with a marker that has no header shape and is not 0x03 (40_catalog.md R80; log 12). Raised by RX_BYTE
  and the marker rows, in states no run reaches. Safe. -/
  | noHeaderShape
deriving DecidableEq, Repr

/-- Refusals of the model itself. A request the SPEC refuses is not one of these: it takes a next state with the refusal
mark (00_scope.md R13, log 1). -/
inductive Refusal where
  /-- An instruction without a meaning in this model, by its mnemonic. Raised by no arm. Safe. -/
  | notModelled (mnemonic : String)
deriving DecidableEq, Repr

/-- No operands and no positive answer: what stands at the port before a request is presented (DESIGN CHOICE, log 19). -/
def Port.nothing : Port :=
  { ops := { cfg := ⟨0, 0, 0⟩, cb := none, payload := [], len := 0, h := ⟨0⟩, status := .ok, hb := ⟨0⟩, hbBytes := [],
             n := 0 },
    ans := { alloc := none, write := .fail, acquire := .fail, receive := ⟨0⟩ },
    consumer := [] }

/-- The machine right after reset (10_state.md R33, 70_reset_and_hazards.md R147). `SCR` and `FULL` list nothing: their
bytes are unspecified. -/
def State.reset : State :=
  { params := Config.params, init := false, st := .dm, kind := 0x00, cnt := 0, exp := 0, scr := [], full := [],
    cb := none, out := [], refused := false, bufs := [], resets := 0, port := Port.nothing, pending := [], trace := [] }

end Sys2Proof.Machine
end

