-- ==== Sys2Proof/Machine/Operands.lean ====
section
/-! DEFINITION. Operand assembly: the Packet Catalog's header shapes and lengths (40_catalog.md R80, R81, R84), byte
order (20_memory.md R41), field views (R42, R62, R63), and the numeric encodings of states and results (D3, D12). -/

namespace Sys2Proof.Machine

/-- `le16(lo, hi)`: the first byte on the wire is bits [7:0] (00_scope.md R8, 20_memory.md R41). -/
def le16 (lo hi : Byte) : BitVec 16 := lo.zeroExtend 16 ||| (hi.zeroExtend 16 <<< 8)

/-- The three kinds that have a header shape (30_encoding.md R60). -/
inductive PacketKind where
  | command
  | acl
  | event
deriving DecidableEq, Repr

/-- The kind of a marker byte, where it has a header shape (R60). -/
def kindOf (b : Byte) : Option PacketKind :=
  if b = 0x01 then some .command
  else if b = 0x02 then some .acl
  else if b = 0x04 then some .event
  else none

/-- The marker byte of a kind (R60). -/
def PacketKind.marker : PacketKind → Byte
  | .command => 0x01
  | .acl => 0x02
  | .event => 0x04

/-- `H(k)`: header bytes after the marker (R80). -/
def headerSize : PacketKind → Nat
  | .command => 3
  | .acl => 4
  | .event => 2

/-- `P(k, h)`: the payload length the `H(k)` header bytes declare (R81). There is none where the list is not `H(k)` bytes
long. -/
def payloadLen : PacketKind → List Byte → Option (BitVec 16)
  | .command, [_, _, h2] => some (h2.zeroExtend 16)
  | .acl, [_, _, h2, h3] => some (le16 h2 h3)
  | .event, [_, h1] => some (h1.zeroExtend 16)
  | _, _ => none

/-- `expLen(k, P) = H(k) + P`, in 17 bits (R84). -/
def expLen (k : PacketKind) (p : BitVec 16) : Count := BitVec.ofNat 17 (headerSize k) + p.zeroExtend 17

/-- The agents that issue requests (60_exceptions.md R143). -/
inductive Agent where
  /-- The channel's byte callback context. -/
  | receive
  /-- A send caller. -/
  | sender
  /-- The transport's completion context. -/
  | completion
  /-- A hand-off caller. -/
  | handoff
  /-- The initializer. -/
  | initializer
deriving DecidableEq, Repr

/-- The agent a request belongs to (R143); the reserved words belong to none. -/
def agentOf : Instr → Option Agent
  | .init => some .initializer
  | .rxByte _ => some .receive
  | .send _ => some .sender
  | .txDone => some .completion
  | .handoff => some .handoff
  | .reservedOp5 _ => none
  | .reservedOp6 _ => none
  | .reservedOp7 _ => none
  | .markerCmd => some .receive
  | .markerAcl => some .receive
  | .markerSync => some .receive
  | .markerEvt => some .receive
  | .markerOther _ => some .receive

/-- The byte an instruction of the receive path presents: RX_BYTE's operand, or the wire byte of a marker row (R71,
R60). -/
def presentedByte : Instr → Option Byte
  | .init => none
  | .rxByte b => some b
  | .send _ => none
  | .txDone => none
  | .handoff => none
  | .reservedOp5 _ => none
  | .reservedOp6 _ => none
  | .reservedOp7 _ => none
  | .markerCmd => some 0x01
  | .markerAcl => some 0x02
  | .markerSync => some 0x03
  | .markerEvt => some 0x04
  | .markerOther b => some b

/-- `FULL_SIZE = max(4 + ACL_MAX, 258)` (00_scope.md R6, 10_state.md R24). -/
def fullSize (p : Params) : Nat := max (4 + p.aclMax.val) 258

/-- The destination buffer of the byte to come: a function of `st`, not a register (10_state.md R22). The regions are those
of this instance. -/
def destination (s : State) : Option Space :=
  match s.st with
  | .dm => none
  | .dh => some (.scr s.resets)
  | .pip => some (.full s.resets)
  | .unused => none

/-- The encoding of `st` (10_state.md R18, D12). -/
def detStateCode : DetState → BitVec 2
  | .dm => 0
  | .dh => 1
  | .pip => 2
  | .unused => 3

/-- The numeric code of a result; `UPPER(v)` has none (60_exceptions.md R132, D3). -/
def resultCode : Result → Option Nat
  | .ok => some 0
  | .alreadyInitialized => some 1
  | .transportError => some 2
  | .outOfMemory => some 3
  | .upper _ => none

/-- ACL handle, bits [11:0] of the handle/flags field (R42, R63; PRESUMED by the spec itself, log 24; no rule reads it). -/
def aclHandle (hf : BitVec 16) : BitVec 12 := hf.extractLsb' 0 12

/-- Packet-boundary flag, bits [13:12] (R42, R63; log 24; no rule reads it). -/
def aclPacketBoundary (hf : BitVec 16) : BitVec 2 := hf.extractLsb' 12 2

/-- Broadcast flag, bits [15:14] (R42, R63; log 24; no rule reads it). -/
def aclBroadcast (hf : BitVec 16) : BitVec 2 := hf.extractLsb' 14 2

/-- OCF = opcode[9:0] (R62; log 24; no rule reads it). -/
def opcodeOcf (opcode : BitVec 16) : BitVec 10 := opcode.extractLsb' 0 10

/-- OGF = opcode[15:10] (R62; log 24; no rule reads it). -/
def opcodeOgf (opcode : BitVec 16) : BitVec 6 := opcode.extractLsb' 10 6

end Sys2Proof.Machine
end

