-- ==== Sys2Proof/Machine/Flags.lean ====
section
/-! DEFINITION. The engine has no flags and no condition codes (10_state.md R28). This file holds the conditions its
rules test: the catalog's marker predicates and length guard (40_catalog.md R79, R82, R83). -/

namespace Sys2Proof.Machine

/-- `isKind(b)`: the marker has a header shape (R79). -/
def isKind (b : Byte) : Bool := (kindOf b).isSome

/-- `acceptsMarker(b)`: what the detector tests in DetectMarker (R79). -/
def acceptsMarker (p : Params) (b : Byte) : Bool := isKind b || (p.scoLegacy && b == 0x03)

/-- `handoffValid(b)`: what the hand-off tests (R79). -/
def handoffValid (b : Byte) : Bool := isKind b

/-- `lengthOk(k, P)`: a declared length equal to the maximum passes (R82, R83). -/
def lengthOk (p : Params) : PacketKind → BitVec 16 → Bool
  | .command, _ => true
  | .acl, len => decide (len.toNat ≤ p.aclMax.val)
  | .event, len => !p.evtGuardEn || decide (len.toNat ≤ p.evtMax.toNat)

end Sys2Proof.Machine
end

