-- ==== Sys2Proof/Machine/Ops.lean ====
section
/-! DEFINITION. The shared operations: MemRead and MemWrite over byte regions (20_memory.md R36), handle sets, outputs,
the refusal of a request (00_scope.md R13), taking a request, toDM (41_receive.md R102), dispatch (R101), the release of
a frame buffer, and re-instantiation. The engine has no trap mechanism (60_exceptions.md R136), so there is no exception
entry; `refuse` is the one operation every turned-away request goes through. -/

namespace Sys2Proof.Machine

/-- What a meaning answers. -/
abbrev Answer := Host.Outcome State Fault Refusal

/-! ### Byte regions -/

/-- The byte written at an index, if one was. -/
def Memory.find (m : Memory) (i : Nat) : Option Byte :=
  match m with
  | [] => none
  | (a, b) :: rest => if a = i then some b else Memory.find rest i

/-- `R[i]` (00_scope.md R9): the byte written there, or the free "any value" of a byte nothing has written (log 6). -/
def Memory.read (sp : Space) (m : Memory) (i : Nat) : Byte :=
  (m.find i).getD (Config.unspecifiedByte sp i)

/-- `R[i] <- b`, keeping the canonical form. -/
def Memory.write (m : Memory) (i : Nat) (b : Byte) : Memory :=
  match m with
  | [] => [(i, b)]
  | (a, c) :: rest =>
    if i < a then (i, b) :: (a, c) :: rest
    else if i = a then (i, b) :: rest
    else (a, c) :: Memory.write rest i b

/-- `R[i+j] <- v[j]` for every byte of `v`. -/
def Memory.writeAll (m : Memory) (i : Nat) : List Byte → Memory
  | [] => m
  | b :: bs => Memory.writeAll (m.write i b) (i + 1) bs

/-- Every index of an `n`-byte access from `i` is below the region's size (R36). -/
def inBounds (size i n : Nat) : Bool := n == 0 || decide (i + n ≤ size)

/-- `MemRead(R, i, n)` on a region of `size` bytes; no value where an index is out of bounds (R36). -/
def memRead (sp : Space) (size : Nat) (m : Memory) (i n : Nat) : Option (List Byte) :=
  if inBounds size i n then some ((List.range n).map fun j => m.read sp (i + j)) else none

/-- `MemWrite(R, i, n, v)` with `n` the length of `v`; no value where an index is out of bounds (R36). -/
def memWrite (size : Nat) (m : Memory) (i : Nat) (v : List Byte) : Option Memory :=
  if inBounds size i v.length then some (m.writeAll i v) else none

/-- `MemRead` on a caller's bytes (the SEND payload, `HB`), whose size is how many bytes were presented (R36, log 13). -/
def seqRead (bytes : List Byte) (i n : Nat) : Option (List Byte) :=
  if inBounds bytes.length i n then some ((bytes.drop i).take n) else none

/-! ### Sets of handles and the frame buffers -/

/-- `out ∪ {h}`, strictly rising. -/
def insertHandle (h : BufHandle) : List BufHandle → List BufHandle
  | [] => [h]
  | x :: xs => if h.id < x.id then h :: x :: xs else if h.id = x.id then x :: xs else x :: insertHandle h xs

/-- `out \ {h}`. -/
def eraseHandle (h : BufHandle) (xs : List BufHandle) : List BufHandle := xs.filter (fun x => x.id != h.id)

/-- `BUF(h)`, if it is held. -/
def findBuf (h : BufHandle) : List (BufHandle × Memory) → Option Memory
  | [] => none
  | (x, m) :: rest => if x = h then some m else findBuf h rest

/-- `BUF(h) := m`, handles strictly rising. -/
def putBuf (h : BufHandle) (m : Memory) : List (BufHandle × Memory) → List (BufHandle × Memory)
  | [] => [(h, m)]
  | (x, k) :: rest =>
    if h.id < x.id then (h, m) :: (x, k) :: rest
    else if h.id = x.id then (h, m) :: rest
    else (x, k) :: putBuf h m rest

/-- `BUF(h)` is no longer held. -/
def dropBuf (h : BufHandle) (bs : List (BufHandle × Memory)) : List (BufHandle × Memory) :=
  bs.filter (fun x => x.1.id != h.id)

/-- A handle of an outbound buffer the engine tracks, which an `Alloc` answer must differ from (42_send.md R108). DESIGN
CHOICE (log 11): those in `out` and no others, so a handle from before a re-instantiation may be answered afresh. -/
def isLive (h : BufHandle) (s : State) : Bool := s.out.contains h

/-! ### Outputs -/

/-- `emit E` (00_scope.md R9). -/
def State.emit (s : State) (e : Event) : State := { s with trace := s.trace ++ [.event e] }

/-- `return r` (00_scope.md R9): the result leaves the engine and is kept in no register (10_state.md R28). -/
def State.answer (s : State) (r : Result) : State := { s with trace := s.trace ++ [.result r] }

/-- `refuse(reason)` (00_scope.md R9, R13): the step does not occur; the mark becomes true (10_state.md R35; log 1). -/
def State.refuse (s : State) (why : RefuseReason) : State :=
  { s with refused := true, trace := s.trace ++ [.refused why] }

/-! ### Requests -/

/-- The next request is taken: its operands and answers stand at the port. -/
def State.take (s : State) (r : Request) (rest : List Request) : State := { s with port := r.port, pending := rest }

/-- The reason for which a code the decoder rejects is refused (30_encoding.md R72). -/
def refusalOf : DecodeError → RefuseReason
  | .nonzeroData op => .nonzeroData op

/-- The request is an RX_BYTE: the word with op 1, or a byte of the stream (60_exceptions.md R137). -/
def Call.isRxByte (c : Call) : Bool :=
  match c.code with
  | .word w => opOf w == 1
  | .wire _ => true

/-- A consumer's request as a request of its own; it can issue none itself (only RX_BYTE dispatches). -/
def Call.toRequest (c : Call) : Request :=
  { code := c.code, port := { ops := c.ops, ans := c.ans, consumer := [] } }

/-- What the `Deliver` consumer issued takes its place: each RX_BYTE is refused, every other request is ordered after
this step (41_receive.md R105, D25; log 5). -/
def State.consumerReturns (s : State) : State :=
  { s with
    refused := s.refused || s.port.consumer.any Call.isRxByte
    trace := s.trace ++ (s.port.consumer.filter Call.isRxByte).map (fun _ => .refused .rxDuringDeliver)
    pending := (s.port.consumer.filter (fun c => !c.isRxByte)).map Call.toRequest ++ s.pending }

/-! ### The detector's shared steps -/

/-- `toDM()` (41_receive.md R102). -/
def State.toDM (s : State) : State := { s with st := .dm, kind := 0x00, cnt := 0, exp := 0 }

/-- `dispatch()` (R101): `Deliver` with a copy of `FULL[0 .. exp-1]` (20_memory.md R48), then `toDM()`. -/
def dispatch (s : State) : Answer :=
  match memRead (.full s.resets) (fullSize s.params) s.full 0 s.exp.toNat with
  | none => .fault .regionBounds
  | some bytes => .next ((s.emit (.deliver s.cb s.kind bytes s.exp)).consumerReturns.toDM)

/-! ### The frame buffers' shared steps -/

/-- The frame of SEND (42_send.md R110): the marker at byte 0 and `len` payload bytes from byte 1, in a buffer of
`1 + len` bytes. -/
def frame (kind : Byte) (payload : List Byte) (len : Nat) : Option Memory :=
  match seqRead payload 0 len with
  | none => none
  | some bytes =>
    match memWrite (1 + len) [] 0 [kind] with
    | none => none
    | some m => memWrite (1 + len) m 1 bytes

/-- `BUF(h)` holds the frame. -/
def State.store (s : State) (h : BufHandle) (m : Memory) : State := { s with bufs := putBuf h m s.bufs }

/-- `Free(h)` of a frame buffer (42_send.md R112, R114): the event, and the buffer is no longer live. -/
def State.release (s : State) (h : BufHandle) : State :=
  { s with bufs := dropBuf h s.bufs, trace := s.trace ++ [.event (.free h)] }

/-! ### Re-instantiation -/

/-- Reset during a run (70_reset_and_hazards.md R147, R148): every engine field at its reset value, the refusal mark kept
(10_state.md R35; log 17). The unwritten bytes of `SCR` and `FULL` are a new draw (R33; log 6). What is outside the engine
stays: the parameters, the allocator's memory, the requests still to come and the outputs so far. R148 has the platform
reclaim the buffers that were in `out` and names no time. DESIGN CHOICE (log 17): their bytes stay until `Alloc` answers
the handle again, and `isLive` no longer counts them, so that answer is accepted. No request does this (R147). -/
def resetEngine (s : State) : State :=
  { s with init := false, st := .dm, kind := 0x00, cnt := 0, exp := 0, scr := [], full := [], cb := none, out := [],
           resets := s.resets + 1 }

end Sys2Proof.Machine
end

