-- ==== Sys2Proof/Machine/Handoff.lean ====
section
/-! DEFINITION. The Downward Hand-off (43_handoff.md): HANDOFF. It reads and writes no engine state (R123). -/

namespace Sys2Proof.Machine

/-- HANDOFF HB, n (R118, R124). -/
def execHandoff (s : State) : Answer :=
  let n := s.port.ops.n.toNat
  if n = 0 then .next (s.answer .transportError)
  else
    match s.port.ops.hbBytes with
    | [] => .fault .regionBounds
    | marker :: _ =>
      if handoffValid marker then
        match seqRead s.port.ops.hbBytes 1 (n - 1) with
        | none => .fault .regionBounds
        | some bytes =>
          .next (((s.emit (.receive marker bytes (n - 1))).emit (.free s.port.ops.hb)).answer
            (.upper s.port.ans.receive))
      else .next (s.answer .transportError)

end Sys2Proof.Machine
end

