-- ==== Sys2Proof/Machine/Lifecycle.lean ====
section
/-! DEFINITION. The Lifecycle initializer (44_lifecycle.md): INIT. -/

namespace Sys2Proof.Machine

/-- INIT cfg, cb (R125, R130). The checks come in R138's order: callback, already initialized, `Acquire`. -/
def execInit (s : State) : Answer :=
  match s.port.ops.cb with
  | none => .next (s.refuse .initWithoutCallback)
  | some c =>
    if s.init then .next (s.answer .alreadyInitialized)
    else
      let t := s.emit (.acquire s.port.ops.cfg)
      match s.port.ans.acquire with
      | .fail => .next (t.answer .transportError)
      | .ok => .next (State.answer { t.toDM with cb := some c, init := true } .ok)

end Sys2Proof.Machine
end

