-- ==== Sys2Proof/Machine/Receive.lean ====
section
/-! DEFINITION. The Receive Detector and Dispatcher (41_receive.md): RX_BYTE, and the marker rows, which are the classes
of the same byte (30_encoding.md R60; a wire byte is presented as one RX_BYTE, 60_exceptions.md R137; log 14). -/

namespace Sys2Proof.Machine

/-- DetectMarker (R89 to R91). -/
def receiveMarker (b : Byte) (s : State) : Answer :=
  if acceptsMarker s.params b then
    match memWrite Config.scratchSize s.scr 0 [b] with
    | none => .fault .regionBounds
    | some scr => .next { s with kind := b, scr := scr, cnt := 1, st := .dh }
  else .next s

/-- The complete header (R94 to R98): the guard, then `exp`, the copy to `FULL`, the count, and the dispatch of a
header-only packet. -/
def headerComplete (k : PacketKind) (s : State) : Answer :=
  match memRead (.scr s.resets) Config.scratchSize s.scr 1 (headerSize k) with
  | none => .fault .regionBounds
  | some hdr =>
    match payloadLen k hdr with
    | none => .fault .regionBounds
    | some len =>
      if lengthOk s.params k len then
        match memWrite (fullSize s.params) s.full 0 hdr with
        | none => .fault .regionBounds
        | some full =>
          let t := { s with exp := expLen k len, st := .pip, full := full, cnt := s.cnt - 1 }
          if t.cnt = t.exp then dispatch t else .next t
      else .next s.toDM

/-- DetectHeader (R92 to R98; log 12 for a marker without a header shape, log 22 for the test of the count). -/
def receiveHeader (b : Byte) (s : State) : Answer :=
  if s.kind = 0x03 then .next s
  else
    match kindOf s.kind with
    | none => .fault .noHeaderShape
    | some k =>
      match memWrite Config.scratchSize s.scr s.cnt.toNat [b] with
      | none => .fault .regionBounds
      | some scr =>
        let t := { s with scr := scr, cnt := s.cnt + 1 }
        if t.cnt.toNat = 1 + headerSize k then headerComplete k t else .next t

/-- PacketInProgress (R99, R100). -/
def receivePayload (b : Byte) (s : State) : Answer :=
  match memWrite (fullSize s.params) s.full s.cnt.toNat [b] with
  | none => .fault .regionBounds
  | some full =>
    let t := { s with full := full, cnt := s.cnt + 1 }
    if t.cnt = t.exp then dispatch t else .next t

/-- RX_BYTE as a whole (R103): nothing before INIT (R87), then the arm of `st` (R88). -/
def receiveByte (b : Byte) (s : State) : Answer :=
  if s.init then
    match s.st with
    | .dm => receiveMarker b s
    | .dh => receiveHeader b s
    | .pip => receivePayload b s
    | .unused => .fault .unusedDetState
  else .next s

/-- RX_BYTE b (R86, R103). -/
def execRxByte (b : Byte) (s : State) : Answer := receiveByte b s

/-- The wire byte 0x01, Command: accepted in DetectMarker (R89), data elsewhere (R69). -/
def execMarkerCmd (s : State) : Answer := receiveByte 0x01 s

/-- The wire byte 0x02, ACL-Data: accepted in DetectMarker (R89), data elsewhere (R69). -/
def execMarkerAcl (s : State) : Answer := receiveByte 0x02 s

/-- The wire byte 0x03, Synchronous-Data: in DetectMarker discarded, or the legacy dead end (R90, R91); data elsewhere
(R69). -/
def execMarkerSync (s : State) : Answer := receiveByte 0x03 s

/-- The wire byte 0x04, Event: accepted in DetectMarker (R89), data elsewhere (R69). -/
def execMarkerEvt (s : State) : Answer := receiveByte 0x04 s

/-- Any other wire byte: discarded in DetectMarker (R91), data elsewhere (R69). -/
def execMarkerOther (b : Byte) (s : State) : Answer := receiveByte b s

end Sys2Proof.Machine
end

