-- ==== Sys2Proof/Machine/Reserved.lean ====
section
/-! DEFINITION. The reserved operation codes (30_encoding.md R72): refused (00_scope.md R13), whatever the data. The step
does not occur and the refusal mark becomes true (10_state.md R35; log 1). -/

namespace Sys2Proof.Machine

/-- op 0b101 (R72). -/
def execReservedOp5 (_d : Byte) (s : State) : Answer := .next (s.refuse (.reservedOp 5))

/-- op 0b110 (R72). -/
def execReservedOp6 (_d : Byte) (s : State) : Answer := .next (s.refuse (.reservedOp 6))

/-- op 0b111 (R72). -/
def execReservedOp7 (_d : Byte) (s : State) : Answer := .next (s.refuse (.reservedOp 7))

end Sys2Proof.Machine
end

