-- ==== Sys2Proof/Machine/Send.lean ====
section
/-! DEFINITION. The Send Framer (42_send.md): SEND and TX_DONE. -/

namespace Sys2Proof.Machine

/-- SEND kind, payload, len (R106, R116). `kind` is not validated (R110, D16). -/
def execSend (kind : Byte) (s : State) : Answer :=
  if s.init then
    let len := s.port.ops.len.toNat
    match s.port.ans.alloc with
    | none => .next ((s.emit (.alloc (1 + len))).answer .outOfMemory)
    | some h =>
      if isLive h s then .next (s.refuse .allocNotFresh)
      else
        match frame kind s.port.ops.payload len with
        | none => .fault .regionBounds
        | some m =>
          let t := ((s.emit (.alloc (1 + len))).store h m).emit (.write h (1 + len) h)
          match s.port.ans.write with
          | .fail => .next ((t.release h).answer .transportError)
          | .ok => .next (State.answer { t with out := insertHandle h t.out } .ok)
  else .next (s.refuse .sendBeforeInit)

/-- TX_DONE h, status (R114, R115, R117). `status` is read by no rule. -/
def execTxDone (s : State) : Answer :=
  let h := s.port.ops.h
  if s.out.contains h then .next { s.release h with out := eraseHandle h s.out }
  else .next (s.refuse .unknownCompletion)

end Sys2Proof.Machine
end

