-- ==== Sys2Proof/Machine/Dispatch.lean ====
section
/-! DEFINITION. The dispatch: one arm per row of opcode_table.json. -/

namespace Sys2Proof.Machine

def exec (i : Instr) (s : State) : Host.Outcome State Fault Refusal :=
  match i with
  | .init => Sys2Proof.Machine.execInit s
  | .rxByte b => Sys2Proof.Machine.execRxByte b s
  | .send kind => Sys2Proof.Machine.execSend kind s
  | .txDone => Sys2Proof.Machine.execTxDone s
  | .handoff => Sys2Proof.Machine.execHandoff s
  | .reservedOp5 d => Sys2Proof.Machine.execReservedOp5 d s
  | .reservedOp6 d => Sys2Proof.Machine.execReservedOp6 d s
  | .reservedOp7 d => Sys2Proof.Machine.execReservedOp7 d s
  | .markerCmd => Sys2Proof.Machine.execMarkerCmd s
  | .markerAcl => Sys2Proof.Machine.execMarkerAcl s
  | .markerSync => Sys2Proof.Machine.execMarkerSync s
  | .markerEvt => Sys2Proof.Machine.execMarkerEvt s
  | .markerOther b => Sys2Proof.Machine.execMarkerOther b s

end Sys2Proof.Machine
end

