-- ==== Sys2Proof/Machine/Step.lean ====
section
/-! DEFINITION. One step (00_scope.md R10): the next request is taken, decoded and run. -/

namespace Sys2Proof.Machine

/-- One atomic step. With nothing pending the engine waits (70_reset_and_hazards.md R147; log 3). A word the decoder
rejects is refused (30_encoding.md R72). -/
def step (s : State) : Host.Outcome State Fault Refusal :=
  match s.pending with
  | [] => .next s
  | r :: rest =>
    match decode r.code with
    | .ok i => exec i (s.take r rest)
    | .error e => .next ((s.take r rest).refuse (refusalOf e))

/-- The table word presented as the very next request, with the operands and answers that stand at the port (log 15). -/
def State.withFetchWord (s : State) (nbits w : Nat) : State :=
  { s with pending := { code := codeOfTable nbits w, port := s.port } :: s.pending }

end Sys2Proof.Machine
end

