-- ==== Sys2Proof/Machine/Assembler.lean ====
section
/-! DEFINITION. The request notation of 30_encoding.md R75 to R77 as functions: each line of a request sequence as the
requests it stands for. Notation only (D32); no meaning of an instruction reads it. -/

namespace Sys2Proof.Machine

/-- `INIT cfg=…, cb=… -> acquire …`. -/
def asmInit (cfg : Cfg) (cb : Option Callback) (acquire : Status) : Request :=
  { code := encode .init,
    port := { Port.nothing with
              ops := { Port.nothing.ops with cfg := cfg, cb := cb }
              ans := { Port.nothing.ans with acquire := acquire } } }

/-- `RX b`. -/
def asmRx (b : Byte) : Request := { code := encode (.rxByte b), port := Port.nothing }

/-- The pseudo-request `RXS b0, …, bk`: `RX b0`, …, `RX bk` in that order (R76). -/
def asmRxs (bs : List Byte) : List Request := bs.map asmRx

/-- `SEND kind, [p0, …] -> alloc …, write …`; `len` is the number of bytes listed. -/
def asmSend (kind : Byte) (payload : List Byte) (alloc : Option BufHandle) (write : Status) : Request :=
  { code := encode (.send kind),
    port := { Port.nothing with
              ops := { Port.nothing.ops with payload := payload, len := BitVec.ofNat 16 payload.length }
              ans := { Port.nothing.ans with alloc := alloc, write := write } } }

/-- `TXDONE h, ok|fail`. -/
def asmTxDone (h : BufHandle) (status : Status) : Request :=
  { code := encode .txDone, port := { Port.nothing with ops := { Port.nothing.ops with h := h, status := status } } }

/-- `HANDOFF hb, [b0, …] -> receive v`; `n` is the number of bytes listed. -/
def asmHandoff (hb : BufHandle) (bytes : List Byte) (receive : UpperResult) : Request :=
  { code := encode .handoff,
    port := { Port.nothing with
              ops := { Port.nothing.ops with hb := hb, hbBytes := bytes, n := BitVec.ofNat 17 bytes.length }
              ans := { Port.nothing.ans with receive := receive } } }

end Sys2Proof.Machine
end

