-- ==== Sys2Proof/Safety.lean ====
section
/-! DEFINITION. What counts as a safe state and a safe run: the invariants of 10_state.md R30 and R31, the typing of the
requests (30_encoding.md R73), and the views that claims compare. -/

namespace Sys2Proof.Machine

/-- The detector registers between steps: 10_state.md R31, word for word. -/
def detectorInv (s : State) : Prop :=
  match s.st with
  | .dm => s.cnt = 0 ∧ s.kind = 0x00 ∧ s.exp = 0
  | .dh =>
    (∃ k, kindOf s.kind = some k ∧ 1 ≤ s.cnt.toNat ∧ s.cnt.toNat ≤ headerSize k) ∨
      (s.params.scoLegacy = true ∧ s.kind = 0x03 ∧ s.cnt = 1)
  | .pip =>
    ∃ k, kindOf s.kind = some k ∧ headerSize k ≤ s.cnt.toNat ∧ s.cnt.toNat < s.exp.toNat ∧
      s.exp.toNat ≤ fullSize s.params
  | .unused => False

/-- Before INIT the detector is idle and no callback is bound; after it a callback is (R17, R25). -/
def lifecycleInv (s : State) : Prop :=
  (s.init = false → s.st = .dm ∧ s.cb = none) ∧ (s.init = true → s.cb ≠ none)

/-- Every byte a rule will read has been written for this packet (R23, R24, D13). -/
def writtenInv (s : State) : Prop :=
  (s.st = .dh → s.scr.find 0 = some s.kind ∧ ∀ i, i < s.cnt.toNat → (s.scr.find i).isSome = true) ∧
    (s.st = .pip → ∀ i, i < s.cnt.toNat → (s.full.find i).isSome = true)

/-- While a payload is collected, `exp` is what the header at the start of `FULL` declares, and the header passed its
guard (R21, R30 (c)). -/
def declaredInv (s : State) : Prop :=
  s.st = .pip →
    ∃ k hdr len, kindOf s.kind = some k ∧
      memRead (.full s.resets) (fullSize s.params) s.full 0 (headerSize k) = some hdr ∧ payloadLen k hdr = some len ∧
      lengthOk s.params k len = true ∧ s.exp = expLen k len

/-- The engine's two regions are in canonical form and list no index outside the region (20_memory.md R36, R37). -/
def regionsInv (s : State) : Prop :=
  s.scr.wf ∧ s.full.wf ∧ (∀ c ∈ s.scr, c.1 < Config.scratchSize) ∧ (∀ c ∈ s.full, c.1 < fullSize s.params)

/-- `out` and the frame buffers are sets, and every outstanding handle has a frame buffer (R26, 20_memory.md R50). -/
def buffersInv (s : State) : Prop :=
  s.out.Pairwise (fun x y => x.id < y.id) ∧ s.bufs.Pairwise (fun x y => x.1.id < y.1.id) ∧
    (∀ x ∈ s.bufs, x.2.wf) ∧ ∀ h ∈ s.out, (findBuf h s.bufs).isSome = true

/-- The invariant every step keeps. -/
structure MachineInv (s : State) : Prop where
  detector  : detectorInv s
  lifecycle : lifecycleInv s
  written   : writtenInv s
  declared  : declaredInv s
  regions   : regionsInv s
  buffers   : buffersInv s

/-- Side operands of the types of 30_encoding.md R73: `payload` has `len` bytes, `HB` has `n`. -/
def SideOperands.typed (o : SideOperands) : Prop :=
  o.payload.length = o.len.toNat ∧ o.hbBytes.length = o.n.toNat

/-- A port whose operands, and whose consumer's operands, are typed. -/
def Port.typed (p : Port) : Prop := p.ops.typed ∧ ∀ c ∈ p.consumer, c.ops.typed

/-- Every request still to come is typed. -/
def inputsTyped (s : State) : Prop := ∀ r ∈ s.pending, r.port.typed

/-- The request presents the byte `b`, as a byte of the stream or as the word `0x100 | b`, and the callback issues
nothing if it is called. -/
def presents (r : Request) (b : Byte) : Prop :=
  (r.code = .wire b ∨ r.code = .word (mkWord 1 b)) ∧ r.port.consumer = []

/-- `n` steps of the machine, stopping at a fault or a refusal. -/
def runSteps (n : Nat) (s : State) : Answer := Host.Core.run Sys2Proof.core n s

/-- The two states agree on everything the receive path reads or writes (10_state.md R32), the parameters and the port
included. -/
def sameReceiveView (s t : State) : Prop :=
  s.params = t.params ∧ s.init = t.init ∧ s.st = t.st ∧ s.kind = t.kind ∧ s.cnt = t.cnt ∧ s.exp = t.exp ∧
    s.scr = t.scr ∧ s.full = t.full ∧ s.cb = t.cb ∧ s.port = t.port ∧ s.resets = t.resets

/-- The engine's own record (10_state.md R15) but for the refusal mark is the same. -/
def sameEngine (s t : State) : Prop :=
  s.params = t.params ∧ s.init = t.init ∧ s.st = t.st ∧ s.kind = t.kind ∧ s.cnt = t.cnt ∧ s.exp = t.exp ∧
    s.scr = t.scr ∧ s.full = t.full ∧ s.cb = t.cb ∧ s.out = t.out ∧ s.bufs = t.bufs ∧ s.resets = t.resets

/-- The fields the send path writes are the same (R32): `out` and the frame buffers. -/
def sameSendView (s t : State) : Prop := s.out = t.out ∧ s.bufs = t.bufs

/-- The detector's fields are the same (R32). -/
def sameDetector (s t : State) : Prop :=
  s.st = t.st ∧ s.kind = t.kind ∧ s.cnt = t.cnt ∧ s.exp = t.exp ∧ s.scr = t.scr ∧ s.full = t.full

/-- What the requests of the `Deliver` consumer `cs` leave pending (41_receive.md R105): all but the RX_BYTEs, in order. That they come next is the model's choice (log 5). -/
def laterRequests (cs : List Call) : List Request := (cs.filter fun c => !c.isRxByte).map Call.toRequest

/-- Neither an output event nor a result: at most the model's own record of refusals (log 16). -/
def silent (l : List Output) : Prop := ∀ o ∈ l, ∃ why, o = .refused why

/-- The state after `dispatch()` from `s` (41_receive.md R101, R102): the packet delivered to `cb`, the detector back in
DetectMarker. `l` and `pending` are what the requests of the `Deliver` consumer leave (R105), as is the mark. -/
def afterDispatch (s : State) (bytes : List Byte) (count : Count) (l : List Output) (pending : List Request) : State :=
  { s with
    st := .dm, kind := 0x00, cnt := 0, exp := 0
    refused := s.refused || s.port.consumer.any Call.isRxByte
    trace := s.trace ++ (.event (.deliver s.cb s.kind bytes count) :: l)
    pending := pending }

/-- How many packets a record of outputs delivered (41_receive.md R101). -/
def deliveries (outputs : List Output) : Nat :=
  (outputs.filter fun o => match o with
    | .event (.deliver _ _ _ _) => true
    | _ => false).length

end Sys2Proof.Machine
end

