-- ==== Sys2Proof/Certificates/Slice0/Obligations.lean ====
section
/-! DEFINITION. The statements for the provers. Each formalises the rules of spec/ its docstring names; OBLIGATIONS.json
lists them. The outputs of a step (00_scope.md R11, R13, 60_exceptions.md R132) are what it adds to `trace` (log 16). -/

open Sys2Proof Sys2Proof.Machine

/-! ### Encoding and the step -/

/-- Words and wire bytes written out from 30_encoding.md R60, R71 and R72. -/
def Obligations.SpecWordsDecode : Prop :=
  decodeTableWord 16 0x000 = some .init ∧ decodeTableWord 16 0x1AA = some (.rxByte 0xAA) ∧
    decodeTableWord 16 0x204 = some (.send 0x04) ∧ decodeTableWord 16 0x300 = some .txDone ∧
    decodeTableWord 16 0x400 = some .handoff ∧ decodeTableWord 16 0x55A = some (.reservedOp5 0x5A) ∧
    decodeTableWord 16 0x600 = some (.reservedOp6 0x00) ∧ decodeTableWord 16 0x7FF = some (.reservedOp7 0xFF) ∧
    decodeTableWord 8 0x01 = some .markerCmd ∧ decodeTableWord 8 0x02 = some .markerAcl ∧
    decodeTableWord 8 0x03 = some .markerSync ∧ decodeTableWord 8 0x04 = some .markerEvt ∧
    decodeTableWord 8 0x05 = some (.markerOther 0x05) ∧ decodeTableWord 16 0x001 = none ∧
    decodeTableWord 16 0x3FF = none ∧ decodeTableWord 16 0x480 = none

/-- The encoding of a request is `(op << 8) | data`, and the fields read back (R71). -/
def Obligations.RequestWordLayout : Prop :=
  ∀ (op : BitVec 3) (data : Byte),
    (mkWord op data).toNat = op.toNat * 256 + data.toNat ∧ opOf (mkWord op data) = op ∧ dataOf (mkWord op data) = data

/-- No operand bit of any instruction is lost: decoding an encoded well-formed instruction gives it back. -/
def Obligations.DecodeAfterEncode : Prop := ∀ i : Instr, i.wellFormed = true → decode (encode i) = .ok i

/-- Every code the decoder accepts is the encoding of the well-formed instruction it gives, and lies in that
instruction's row of the opcode table. -/
def Obligations.EncodeAfterDecode : Prop :=
  ∀ (c : Code) (i : Instr), decode c = .ok i → encode i = c ∧ i.wellFormed = true ∧ c.matchesRow (tableRow i) = true

/-- A step takes the next request and runs the instruction it decodes to, with that request's operands and answers at
the port; with nothing pending the engine waits (log 3). -/
def Obligations.StepRunsDecodedRequest : Prop :=
  (∀ (s : State) (r : Request) (rest : List Request) (i : Instr), s.pending = r :: rest → decode r.code = .ok i →
      step s = exec i { s with port := r.port, pending := rest }) ∧
    ∀ s : State, s.pending = [] → step s = .next s

/-- A table word presented by `withFetchWord` is what the very next step runs (log 15). -/
def Obligations.FetchedWordRunsFirst : Prop :=
  ∀ (s : State) (nbits w : Nat) (i : Instr), decodeTableWord nbits w = some i → step (s.withFetchWord nbits w) = exec i s

/-- R72: request words with op 0b101, 0b110 or 0b111 are refused, and so are INIT, TX_DONE and HANDOFF words with
non-zero data: the request is gone, the mark is set, the engine is as it was. -/
def Obligations.ReservedAndNonzeroWordsRefused : Prop :=
  ∀ (s : State) (r : Request) (rest : List Request) (w : ReqWord), s.pending = r :: rest → r.code = .word w →
    (opOf w = 0b101 ∨ opOf w = 0b110 ∨ opOf w = 0b111 ∨
      ((opOf w = 0b000 ∨ opOf w = 0b011 ∨ opOf w = 0b100) ∧ dataOf w ≠ 0x00)) →
    ∃ l, silent l ∧
      step s = .next { s with port := r.port, pending := rest, refused := true, trace := s.trace ++ l }

/-- The reserved rows: each is refused, whatever the data. The recorded reason, its op code, is the model's (log 16). -/
def Obligations.ReservedRowsRefused : Prop :=
  ∀ (d : Byte) (s : State),
    exec (.reservedOp5 d) s = .next { s with refused := true, trace := s.trace ++ [.refused (.reservedOp 0b101)] } ∧
      exec (.reservedOp6 d) s = .next { s with refused := true, trace := s.trace ++ [.refused (.reservedOp 0b110)] } ∧
      exec (.reservedOp7 d) s = .next { s with refused := true, trace := s.trace ++ [.refused (.reservedOp 0b111)] }

/-! ### Lifecycle -/

/-- R127: the first successful INIT. -/
def Obligations.InitBindsCallback : Prop :=
  ∀ (s : State) (c : Callback), s.port.ops.cb = some c → s.init = false → s.port.ans.acquire = .ok →
    exec .init s = .next { s with cb := some c, init := true, st := .dm, kind := 0x00, cnt := 0, exp := 0,
                                  trace := s.trace ++ [.event (.acquire s.port.ops.cfg), .result .ok] }

/-- R128: INIT of an initialized engine. -/
def Obligations.InitAgainChangesNothing : Prop :=
  ∀ (s : State) (c : Callback), s.port.ops.cb = some c → s.init = true →
    exec .init s = .next { s with trace := s.trace ++ [.result .alreadyInitialized] }

/-- R129: acquisition fails; nothing is retained, and a later INIT may succeed. -/
def Obligations.InitAcquireFailureRetainsNothing : Prop :=
  ∀ (s : State) (c : Callback), s.port.ops.cb = some c → s.init = false → s.port.ans.acquire = .fail →
    ∃ t, exec .init s = .next t ∧
      t = { s with trace := s.trace ++ [.event (.acquire s.port.ops.cfg), .result .transportError] } ∧
      ∀ (p : Port) (d : Callback), p.ops.cb = some d → p.ans.acquire = .ok →
        ∃ u, exec .init { t with port := p } = .next u ∧ u.init = true ∧ u.cb = some d

/-- R126: INIT without a callback is refused before every other check. -/
def Obligations.InitWithoutCallbackRefused : Prop :=
  ∀ s : State, s.port.ops.cb = none →
    ∃ l, silent l ∧ exec .init s = .next { s with refused := true, trace := s.trace ++ l }

/-- R131: after a successful INIT no step clears `init`, replaces `cb` or acquires the channel again. -/
def Obligations.LifecycleIsOneWay : Prop :=
  ∀ s t : State, step s = .next t → s.init = true →
    t.init = true ∧ t.cb = s.cb ∧ ∃ l, t.trace = s.trace ++ l ∧ ∀ cfg, Output.event (.acquire cfg) ∉ l

/-- R17: only a successful INIT, with a callback and an acquired channel, initializes the engine. -/
def Obligations.OnlyInitInitializes : Prop :=
  ∀ s t : State, step s = .next t → s.init = false → t.init = true →
    ∃ r rest, s.pending = r :: rest ∧ decode r.code = .ok .init ∧ r.port.ans.acquire = .ok ∧ r.port.ops.cb = t.cb ∧
      t.cb ≠ none

/-! ### The receive path. `i` is RX_BYTE or a marker row, `b` the byte it presents -/

/-- R87: before INIT the byte is lost. -/
def Obligations.ByteBeforeInitIsLost : Prop :=
  ∀ (i : Instr) (b : Byte) (s : State), presentedByte i = some b → s.init = false → exec i s = .next s

/-- R89, R90: an accepted marker, 0x03 under `SCO_LEGACY` among them. -/
def Obligations.MarkerStartsHeader : Prop :=
  ∀ (i : Instr) (b : Byte) (s : State), presentedByte i = some b → s.init = true → s.st = .dm →
    (b = 0x01 ∨ b = 0x02 ∨ b = 0x04 ∨ (b = 0x03 ∧ s.params.scoLegacy = true)) →
    exec i s = .next { s with kind := b, scr := s.scr.write 0 b, cnt := 1, st := .dh }

/-- R91: any other byte in DetectMarker changes nothing. -/
def Obligations.NonMarkerDiscarded : Prop :=
  ∀ (i : Instr) (b : Byte) (s : State), presentedByte i = some b → s.init = true → s.st = .dm →
    b ≠ 0x01 → b ≠ 0x02 → b ≠ 0x04 → (b = 0x03 → s.params.scoLegacy = false) → exec i s = .next s

/-- R92: the legacy dead end absorbs every byte and changes no state; no run of any requests leaves it or delivers a packet
from it. -/
def Obligations.LegacyDeadEnd : Prop :=
  (∀ (i : Instr) (b : Byte) (s : State), presentedByte i = some b → s.init = true → s.st = .dh → s.kind = 0x03 →
      exec i s = .next s) ∧
    ∀ (n : Nat) (s t : State), s.init = true → s.st = .dh → s.kind = 0x03 → runSteps n s = .next t →
      t.st = .dh ∧ t.kind = 0x03 ∧ t.cnt = s.cnt ∧ t.scr = s.scr ∧ t.full = s.full ∧
        deliveries t.trace = deliveries s.trace

/-- R93 to R98, RX_BYTE in DetectHeader. The byte is stored and counted. Where it completes the header: a length that
fails its guard drops the packet without a word; one that passes sets `exp`, copies the header to `FULL` and leaves `cnt`
at `H(kind)`, which it held before the byte (one up for the byte, one down for the marker); a header-only packet is
dispatched at once. What a dispatch leaves pending, and what refusals it records, is nothing of its own where the `Deliver`
consumer asks nothing; DeliverConsumerRequests and DeliverConsumerOrder say the rest. -/
def Obligations.HeaderByte : Prop :=
  ∀ (i : Instr) (b : Byte) (s : State) (k : PacketKind), presentedByte i = some b → s.init = true → s.st = .dh →
    kindOf s.kind = some k →
    (s.cnt.toNat < headerSize k →
        exec i s = .next { s with scr := s.scr.write s.cnt.toNat b, cnt := s.cnt + 1 }) ∧
      ∀ (hdr : List Byte) (len : BitVec 16), s.cnt.toNat = headerSize k →
        memRead (.scr s.resets) 5 (s.scr.write s.cnt.toNat b) 1 (headerSize k) = some hdr → payloadLen k hdr = some len →
        (lengthOk s.params k len = false →
            exec i s = .next { s with scr := s.scr.write s.cnt.toNat b, st := .dm, kind := 0x00, cnt := 0, exp := 0 }) ∧
          (lengthOk s.params k len = true → len ≠ 0 →
            exec i s = .next { s with scr := s.scr.write s.cnt.toNat b, exp := expLen k len, st := .pip,
                                      full := s.full.writeAll 0 hdr, cnt := BitVec.ofNat 17 (headerSize k) }) ∧
          (lengthOk s.params k len = true → len = 0 →
            ∃ l later, silent l ∧ (s.port.consumer = [] → l = [] ∧ later = s.pending) ∧
              exec i s = .next (afterDispatch
                { s with scr := s.scr.write s.cnt.toNat b, full := s.full.writeAll 0 hdr } hdr
                (BitVec.ofNat 17 (headerSize k)) l later))

/-- R99, R100, R101, RX_BYTE in PacketInProgress. The byte is stored and counted; the last one delivers `exp` bytes of
`FULL`, and the detector is back in DetectMarker. What the `Deliver` consumer asks is left to DeliverConsumerRequests and
DeliverConsumerOrder. -/
def Obligations.PayloadByte : Prop :=
  ∀ (i : Instr) (b : Byte) (s : State), presentedByte i = some b → s.init = true → s.st = .pip →
    s.exp.toNat ≤ fullSize s.params →
    (s.cnt.toNat + 1 < s.exp.toNat →
        exec i s = .next { s with full := s.full.write s.cnt.toNat b, cnt := s.cnt + 1 }) ∧
      (s.cnt.toNat + 1 = s.exp.toNat →
        ∃ (bytes : List Byte) (l : List Output) (later : List Request), bytes.length = s.exp.toNat ∧
          (∀ j, j < s.cnt.toNat → bytes[j]? = some (s.full.read (.full s.resets) j)) ∧ bytes[s.cnt.toNat]? = some b ∧ silent l ∧
          (s.port.consumer = [] → l = [] ∧ later = s.pending) ∧
          exec i s = .next (afterDispatch { s with full := s.full.write s.cnt.toNat b } bytes s.exp l later))

/-- R88: the detector encoding no rule writes is a fault. -/
def Obligations.UnusedDetStateFaults : Prop :=
  ∀ (i : Instr) (b : Byte) (s : State), presentedByte i = some b → s.init = true → s.st = .unused →
    exec i s = .fault .unusedDetState

/-- R105: when a byte's step delivers a packet, an RX_BYTE its consumer issues is refused (the mark is set, no second packet
is delivered, and the byte is not taken later); a SEND or HANDOFF it issues is still to be taken after the step. -/
def Obligations.DeliverConsumerRequests : Prop :=
  ∀ (i : Instr) (b : Byte) (s t : State), presentedByte i = some b → exec i s = .next t →
    deliveries t.trace ≠ deliveries s.trace →
    ((∃ c ∈ s.port.consumer, c.isRxByte = true) → t.refused = true) ∧ deliveries t.trace = deliveries s.trace + 1 ∧
      (∀ r ∈ t.pending, r ∈ s.pending ∨ ∃ c ∈ s.port.consumer, c.isRxByte = false ∧ c.toRequest = r) ∧
      (∀ r ∈ s.pending, r ∈ t.pending) ∧
      ∀ c ∈ s.port.consumer, ((∃ kind, decode c.code = .ok (.send kind)) ∨ decode c.code = .ok .handoff) →
        c.toRequest ∈ t.pending

/-- The model's choice (log 5, log 16): every request of the consumer but an RX_BYTE (INIT, TX_DONE, reserved and rejected
words too) comes next, in the order issued, and each RX_BYTE among them leaves its refusal in the record. -/
def Obligations.DeliverConsumerOrder : Prop :=
  ∀ (i : Instr) (b : Byte) (s t : State), presentedByte i = some b → exec i s = .next t →
    deliveries t.trace ≠ deliveries s.trace →
    t.pending = laterRequests s.port.consumer ++ s.pending ∧
      (∀ r, r ∈ t.pending ↔ r ∈ s.pending ∨ ∃ c ∈ s.port.consumer, c.isRxByte = false ∧ c.toRequest = r) ∧
      (s.port.consumer = [] → t.pending = s.pending) ∧
      ((∃ c ∈ s.port.consumer, c.isRxByte = true) → Output.refused .rxDuringDeliver ∈ t.trace)

/-- The frame of the receive path (R32, R45): what it never writes, and the bytes of SCR and FULL it leaves alone. It
stores at `SCR[0]` in DetectMarker, at `SCR[cnt]` in DetectHeader, at `FULL[cnt]` in PacketInProgress, and copies the
header to `FULL[0 .. H(kind)-1]` when a header completes. -/
def Obligations.ReceiveFrame : Prop :=
  ∀ (i : Instr) (b : Byte) (s t : State), presentedByte i = some b → exec i s = .next t →
    t.params = s.params ∧ t.init = s.init ∧ t.cb = s.cb ∧ t.out = s.out ∧ t.bufs = s.bufs ∧ t.port = s.port ∧
      t.resets = s.resets ∧
      (∀ a, ¬(s.st = .dm ∧ a = 0) → ¬(s.st = .dh ∧ a = s.cnt.toNat) → t.scr.read (.scr t.resets) a = s.scr.read (.scr s.resets) a) ∧
      (∀ a, ¬(s.st = .pip ∧ a = s.cnt.toNat) →
        ¬(s.st = .dh ∧ ∃ k, kindOf s.kind = some k ∧ s.cnt.toNat = headerSize k ∧ a < headerSize k) →
        t.full.read (.full t.resets) a = s.full.read (.full s.resets) a) ∧
      (deliveries t.trace = deliveries s.trace → t.trace = s.trace ∧ t.pending = s.pending ∧ t.refused = s.refused)

/-! ### The send path -/

/-- R107: SEND before INIT is refused. -/
def Obligations.SendBeforeInitRefused : Prop :=
  ∀ (kind : Byte) (s : State), s.init = false →
    ∃ l, silent l ∧ exec (.send kind) s = .next { s with refused := true, trace := s.trace ++ l }

/-- R109: no buffer, no write attempted. -/
def Obligations.SendOutOfMemory : Prop :=
  ∀ (kind : Byte) (s : State), s.init = true → s.port.ans.alloc = none →
    exec (.send kind) s = .next { s with
      trace := s.trace ++ [.event (.alloc (1 + s.port.ops.len.toNat)), .result .outOfMemory] }

/-- R110, R111: the frame is the marker and the payload; the buffer is submitted and outstanding. -/
def Obligations.SendSubmitsFrame : Prop :=
  ∀ (kind : Byte) (s : State) (h : BufHandle), s.init = true → s.port.ans.alloc = some h → isLive h s = false →
    s.port.ops.payload.length = s.port.ops.len.toNat → s.port.ans.write = .ok →
    ∃ t m, exec (.send kind) s = .next t ∧
      t = { s with
        out := t.out, bufs := t.bufs
        trace := s.trace ++ [.event (.alloc (1 + s.port.ops.len.toNat)),
          .event (.write h (1 + s.port.ops.len.toNat) h), .result .ok] } ∧
      (∀ x, x ∈ t.out ↔ x = h ∨ x ∈ s.out) ∧ findBuf h t.bufs = some m ∧
      memRead .buf (1 + s.port.ops.len.toNat) m 0 (1 + s.port.ops.len.toNat) = some (kind :: s.port.ops.payload) ∧
      ∀ x, x ≠ h → findBuf x t.bufs = findBuf x s.bufs

/-- R112: the submission fails; the buffer is released at once and `out` is unchanged. -/
def Obligations.SendSubmissionFailureReleases : Prop :=
  ∀ (kind : Byte) (s : State) (h : BufHandle), s.init = true → s.port.ans.alloc = some h → isLive h s = false →
    s.port.ops.payload.length = s.port.ops.len.toNat → s.port.ans.write = .fail →
    ∃ t, exec (.send kind) s = .next t ∧
      t = { s with
        bufs := t.bufs
        trace := s.trace ++ [.event (.alloc (1 + s.port.ops.len.toNat)),
          .event (.write h (1 + s.port.ops.len.toNat) h), .event (.free h), .result .transportError] } ∧
      findBuf h t.bufs = none ∧ ∀ x, x ≠ h → findBuf x t.bufs = findBuf x s.bufs

/-- The model's choice (log 10, log 11, I15): an `Alloc` answer that is the handle of an outstanding buffer is refused. -/
def Obligations.SendStaleHandleRefused : Prop :=
  ∀ (kind : Byte) (s : State) (h : BufHandle), s.init = true → s.port.ans.alloc = some h → isLive h s = true →
    exec (.send kind) s = .next { s with refused := true, trace := s.trace ++ [.refused .allocNotFresh] }

/-- R114: a completion frees its buffer, whatever the status. -/
def Obligations.CompletionReleasesBuffer : Prop :=
  ∀ s : State, s.port.ops.h ∈ s.out →
    ∃ t, exec .txDone s = .next t ∧
      t = { s with out := t.out, bufs := t.bufs, trace := s.trace ++ [.event (.free s.port.ops.h)] } ∧
      (∀ x, x ∈ t.out ↔ x ∈ s.out ∧ x ≠ s.port.ops.h) ∧ findBuf s.port.ops.h t.bufs = none ∧
      ∀ x, x ≠ s.port.ops.h → findBuf x t.bufs = findBuf x s.bufs

/-- R115: a completion for a handle that is not outstanding is refused. -/
def Obligations.UnknownCompletionRefused : Prop :=
  ∀ s : State, s.port.ops.h ∉ s.out →
    ∃ l, silent l ∧ exec .txDone s = .next { s with refused := true, trace := s.trace ++ l }

/-- R50, R111, R114: a handle becomes outstanding only by a SEND whose write was accepted, stays so until the TX_DONE for
it, and that step frees it. -/
def Obligations.OutstandingUntilItsCompletion : Prop :=
  ∀ (s t : State) (h : BufHandle), step s = .next t →
    (h ∈ s.out → h ∈ t.out ∨
      ∃ r rest, s.pending = r :: rest ∧ decode r.code = .ok .txDone ∧ r.port.ops.h = h ∧
        t.trace = s.trace ++ [.event (.free h)]) ∧
      (h ∉ s.out → h ∈ t.out →
        ∃ r rest kind, s.pending = r :: rest ∧ decode r.code = .ok (.send kind) ∧ r.port.ans.alloc = some h ∧
          r.port.ans.write = .ok)

/-! ### The hand-off -/

/-- R119: no marker byte, or one that is not Command, ACL-Data or Event: no Receive, no Free. -/
def Obligations.HandoffInvalidMarker : Prop :=
  ∀ s : State,
    (s.port.ops.n = 0 ∨
      ∃ m rest, s.port.ops.hbBytes = m :: rest ∧ m ≠ 0x01 ∧ m ≠ 0x02 ∧ m ≠ 0x04) →
    exec .handoff s = .next { s with trace := s.trace ++ [.result .transportError] }

/-- R120, R121: the packet goes up, the buffer is freed whatever the upper layer answers, and its answer is the
result. For every `n` with `n - 1` at most 65535 (D34); HandoffForwardsLongBuffer says the rest. -/
def Obligations.HandoffForwardsAndFrees : Prop :=
  ∀ (s : State) (m : Byte) (body : List Byte), s.port.ops.hbBytes = m :: body → s.port.ops.n.toNat = 1 + body.length →
    s.port.ops.n.toNat ≤ 65536 → (m = 0x01 ∨ m = 0x02 ∨ m = 0x04) →
    exec .handoff s = .next { s with
      trace := s.trace ++ [.event (.receive m body (s.port.ops.n.toNat - 1)), .event (.free s.port.ops.hb),
        .result (.upper s.port.ans.receive)] }

/-- The model's choice (log 23): `n` from 65537 to 131071, where D34's width and its bound on `n - 1` disagree, is forwarded
and freed like every other. -/
def Obligations.HandoffForwardsLongBuffer : Prop :=
  ∀ (s : State) (m : Byte) (body : List Byte), s.port.ops.hbBytes = m :: body → s.port.ops.n.toNat = 1 + body.length →
    65536 < s.port.ops.n.toNat → (m = 0x01 ∨ m = 0x02 ∨ m = 0x04) →
    exec .handoff s = .next { s with
      trace := s.trace ++ [.event (.receive m body (s.port.ops.n.toNat - 1)), .event (.free s.port.ops.hb),
        .result (.upper s.port.ans.receive)] }

/-- R123: HANDOFF writes no engine state and its outputs depend on none; it never delivers. -/
def Obligations.HandoffIsIndependent : Prop :=
  ∀ s u t : State, s.port.ops = u.port.ops → s.port.ans = u.port.ans → exec .handoff s = .next t →
    ∃ l, t = { s with trace := s.trace ++ l } ∧ exec .handoff u = .next { u with trace := u.trace ++ l } ∧
      deliveries l = 0

/-! ### Whole-machine rules -/

/-- R32: what each agent's requests leave unchanged. -/
def Obligations.AgentFootprints : Prop :=
  ∀ (i : Instr) (s t : State), exec i s = .next t →
    t.params = s.params ∧ t.port = s.port ∧ t.resets = s.resets ∧
      match agentOf i with
      | some .receive => t.init = s.init ∧ t.cb = s.cb ∧ sameSendView t s
      | some .sender => t.init = s.init ∧ t.cb = s.cb ∧ sameDetector t s ∧ t.pending = s.pending
      | some .completion => t.init = s.init ∧ t.cb = s.cb ∧ sameDetector t s ∧ t.pending = s.pending
      | some .handoff => sameEngine t s ∧ t.refused = s.refused ∧ t.pending = s.pending
      | some .initializer => t.scr = s.scr ∧ t.full = s.full ∧ sameSendView t s ∧ t.pending = s.pending
      | none => sameEngine t s ∧ t.pending = s.pending

/-- R35: the refusal mark becomes true at a refused request (one that leaves its refusal in the record, log 16), is never
cleared, reset included, and no rule reads it. -/
def Obligations.RefusalMarkIsSticky : Prop :=
  ∀ s t : State, step s = .next t →
    (s.refused = true → t.refused = true) ∧
      (∀ why l, t.trace = s.trace ++ l → Output.refused why ∈ l → t.refused = true) ∧
      (s.refused = true → (resetEngine s).refused = true) ∧
      ∀ x : Bool, ∃ y : Bool, step { s with refused := x } = .next { t with refused := y }

/-- R86, R101, R52: a step only adds outputs; it delivers at most one packet, and only the step of a byte that ends a
packet does. -/
def Obligations.AtMostOneDeliveryPerStep : Prop :=
  ∀ s t : State, step s = .next t →
    ∃ l, t.trace = s.trace ++ l ∧ deliveries l ≤ 1 ∧
      (deliveries l = 1 →
        ∃ r rest i b, s.pending = r :: rest ∧ decode r.code = .ok i ∧ presentedByte i = some b ∧ s.init = true ∧
          (s.st = .dh ∨ s.st = .pip) ∧ t.st = .dm)

/-- R21, R30: `exp` is written at the header-to-payload transition and cleared on the way to DetectMarker, nowhere else;
`cnt` never falls inside a packet. -/
def Obligations.CountersWrittenByRule : Prop :=
  ∀ s t : State, step s = .next t →
    (t.exp ≠ s.exp → (s.st = .dh ∧ t.st = .pip) ∨ (t.st = .dm ∧ t.exp = 0)) ∧
      (t.cnt ≠ s.cnt → (t.st = s.st ∧ t.cnt = s.cnt + 1) ∨ (s.st = .dm ∧ t.st = .dh ∧ t.cnt = 1) ∨
        (t.st = .dm ∧ t.cnt = 0))

/-- R53: a byte has the same effect on the receive path, and the same outputs, whatever the send path's state. -/
def Obligations.ReceiveIgnoresSendState : Prop :=
  ∀ (i : Instr) (b : Byte) (s u t : State), presentedByte i = some b → sameReceiveView s u → exec i s = .next t →
    ∃ v l, exec i u = .next v ∧ sameReceiveView t v ∧ t.trace = s.trace ++ l ∧ v.trace = u.trace ++ l ∧
      sameSendView v u

/-- R52, R53: a receive step and a step of a send caller, a completion or a hand-off may be taken in either order: the
state is the same and each makes the same outputs. -/
def Obligations.ReceiveCommutesWithSend : Prop :=
  ∀ (i j : Instr) (p q : Port) (s t u : State), agentOf i = some .receive →
    (agentOf j = some .sender ∨ agentOf j = some .completion ∨ agentOf j = some .handoff) →
    exec i { s with port := p } = .next t → exec j { t with port := q } = .next u →
    ∃ t' li lj, exec j { s with port := q } = .next t' ∧ t.trace = s.trace ++ li ∧ t'.trace = s.trace ++ lj ∧
      u.trace = s.trace ++ li ++ lj ∧
      exec i { t' with port := p } = .next { u with port := p, trace := s.trace ++ lj ++ li }

/-! ### Reset -/

/-- R33: the reset values. `SCR` and `FULL` hold the free "any value" at every index. -/
def Obligations.ResetValues : Prop :=
  State.reset.init = false ∧ State.reset.st = .dm ∧ detStateCode State.reset.st = 0 ∧ State.reset.kind = 0x00 ∧
    State.reset.cnt = 0 ∧ State.reset.exp = 0 ∧
    (∀ i, State.reset.scr.read (.scr State.reset.resets) i = Config.unspecifiedByte (.scr State.reset.resets) i) ∧
    (∀ i, State.reset.full.read (.full State.reset.resets) i = Config.unspecifiedByte (.full State.reset.resets) i) ∧
    State.reset.cb = none ∧
    State.reset.out = [] ∧ State.reset.refused = false

/-- R148, for re-instantiation as the model has it (log 6, log 11, log 17): the engine's fields are at their reset values,
whatever went before, with the bytes of `SCR` and `FULL` a draw of their own; no buffer is tracked, so a completion for one
submitted before is refused, and an `Alloc` answer may be its handle again; SEND is refused until the next INIT, and the
invariant holds. -/
def Obligations.ReinstantiationForgets : Prop :=
  ∀ s : State,
    ((resetEngine s).init = false ∧ (resetEngine s).st = .dm ∧ (resetEngine s).kind = 0x00 ∧ (resetEngine s).cnt = 0 ∧
        (resetEngine s).exp = 0 ∧
        (∀ i, (resetEngine s).scr.read (.scr (resetEngine s).resets) i = Config.unspecifiedByte (.scr (s.resets + 1)) i) ∧
        (∀ i, (resetEngine s).full.read (.full (resetEngine s).resets) i =
          Config.unspecifiedByte (.full (s.resets + 1)) i) ∧
        (resetEngine s).cb = none ∧ (resetEngine s).out = [] ∧ ∀ h, isLive h (resetEngine s) = false) ∧
      (MachineInv s → MachineInv (resetEngine s)) ∧
      (∀ p : Port, ∃ l, silent l ∧ exec .txDone { resetEngine s with port := p } =
        .next { resetEngine s with port := p, refused := true, trace := s.trace ++ l }) ∧
      ∀ kind : Byte, ∃ l, silent l ∧ exec (.send kind) (resetEngine s) =
        .next { resetEngine s with refused := true, trace := s.trace ++ l }

/-! ### The Packet Catalog -/

/-- R79: the marker predicates. -/
def Obligations.MarkerPredicates : Prop :=
  ∀ (p : Params) (b : Byte),
    (isKind b = true ↔ b = 0x01 ∨ b = 0x02 ∨ b = 0x04) ∧
      (acceptsMarker p b = true ↔ isKind b = true ∨ (p.scoLegacy = true ∧ b = 0x03)) ∧
      (handoffValid b = true ↔ isKind b = true)

/-- R80, R81: header sizes, none for any other byte, and declared lengths. The ACL length is little-endian. -/
def Obligations.HeaderShapesAndLengths : Prop :=
  (∀ b : Byte, (kindOf b).map headerSize =
      if b = 0x01 then some 3 else if b = 0x02 then some 4 else if b = 0x04 then some 2 else none) ∧
    ∀ (k : PacketKind) (h0 h1 h2 h3 : Byte),
      (kindOf 0x01 = some k → (payloadLen k [h0, h1, h2]).map BitVec.toNat = some h2.toNat) ∧
        (kindOf 0x02 = some k → (payloadLen k [h0, h1, h2, h3]).map BitVec.toNat = some (h2.toNat + 256 * h3.toNat)) ∧
        (kindOf 0x04 = some k → (payloadLen k [h0, h1]).map BitVec.toNat = some h1.toNat)

/-- R82, R83: the guards; a length equal to the maximum passes. -/
def Obligations.LengthGuards : Prop :=
  ∀ (p : Params) (len : BitVec 16),
    lengthOk p .command len = true ∧ (lengthOk p .acl len = true ↔ len.toNat ≤ p.aclMax.val) ∧
      (lengthOk p .event len = true ↔ p.evtGuardEn = false ∨ len.toNat ≤ p.evtMax.toNat)

/-- R84: the expected length is exact, lies in the range of its kind, and fits `FULL` when the guard passes. -/
def Obligations.ExpectedLengthIsExact : Prop :=
  ∀ (p : Params) (k : PacketKind) (hdr : List Byte) (len : BitVec 16), payloadLen k hdr = some len →
    (expLen k len).toNat = headerSize k + len.toNat ∧
      (match k with
        | .command => 3 ≤ (expLen k len).toNat ∧ (expLen k len).toNat ≤ 258
        | .acl => lengthOk p k len = true → 4 ≤ (expLen k len).toNat ∧ (expLen k len).toNat ≤ 4 + p.aclMax.val
        | .event => 2 ≤ (expLen k len).toNat ∧ (expLen k len).toNat ≤ 257 ∧
            (p.evtGuardEn = true → lengthOk p k len = true → (expLen k len).toNat ≤ 2 + p.evtMax.toNat)) ∧
      (lengthOk p k len = true → (expLen k len).toNat ≤ fullSize p ∧ fullSize p ≤ 65538)

/-- R18, R22, R132: the numeric encodings of the detector states and the results, and the destination buffer. -/
def Obligations.SpecNumbers : Prop :=
  detStateCode .dm = 0 ∧ detStateCode .dh = 1 ∧ detStateCode .pip = 2 ∧ detStateCode .unused = 3 ∧
    resultCode .ok = some 0 ∧ resultCode .alreadyInitialized = some 1 ∧ resultCode .transportError = some 2 ∧
    resultCode .outOfMemory = some 3 ∧ (∀ v, resultCode (.upper v) = none) ∧
    ∀ s : State, (s.st = .dm → destination s = none) ∧ (s.st = .dh → destination s = some (.scr s.resets)) ∧
      (s.st = .pip → destination s = some (.full s.resets))

/-! ### Invariants and headlines -/

/-- The invariant holds at reset. -/
def Obligations.InvAtReset : Prop := MachineInv State.reset

/-- R30, R31: every step keeps the invariant, whatever is requested and whatever the collaborators answer. -/
def Obligations.StepKeepsInv : Prop := ∀ s t : State, MachineInv s → step s = .next t → MachineInv t

/-- R36, R31, R135: in a state that meets the invariant, with typed requests, no step faults or stops. -/
def Obligations.StepNeverStops : Prop :=
  ∀ s : State, MachineInv s → inputsTyped s → ∃ t, step s = .next t ∧ MachineInv t ∧ inputsTyped t

/-- L1-E 1 and 5, R100, R101: the bytes of a packet of any kind that passes its guard, presented in DetectMarker, deliver
exactly that packet and leave the detector ready for the next byte. -/
def Obligations.WholePacketIsDelivered : Prop :=
  ∀ (s : State) (k : PacketKind) (hdr payload : List Byte) (len : BitVec 16) (reqs rest : List Request),
    s.init = true → s.st = .dm → hdr.length = headerSize k → payloadLen k hdr = some len →
    lengthOk s.params k len = true → payload.length = len.toNat →
    List.Forall₂ presents reqs (k.marker :: hdr ++ payload) → s.pending = reqs ++ rest →
    ∃ t, runSteps reqs.length s = .next t ∧
      t.trace = s.trace ++ [.event (.deliver s.cb k.marker (hdr ++ payload) (expLen k len))] ∧
      t.st = .dm ∧ t.kind = 0x00 ∧ t.cnt = 0 ∧ t.exp = 0 ∧ t.pending = rest ∧ t.init = true ∧ t.cb = s.cb ∧
      t.params = s.params ∧ sameSendView t s ∧ t.refused = s.refused

/-- L1-E 3, R95: a header whose length fails its guard delivers nothing and leaves the detector in DetectMarker. -/
def Obligations.OversizedPacketIsDropped : Prop :=
  ∀ (s : State) (k : PacketKind) (hdr : List Byte) (len : BitVec 16) (reqs rest : List Request),
    s.init = true → s.st = .dm → hdr.length = headerSize k → payloadLen k hdr = some len →
    lengthOk s.params k len = false → List.Forall₂ presents reqs (k.marker :: hdr) → s.pending = reqs ++ rest →
    ∃ t, runSteps reqs.length s = .next t ∧ t.trace = s.trace ∧ t.st = .dm ∧ t.cnt = 0 ∧ t.exp = 0 ∧
      t.full = s.full ∧ t.pending = rest ∧ t.init = true

/-- L1-E 2, R91: any run of bytes that are no accepted marker leaves the engine as it was. -/
def Obligations.GarbageRunIsDiscarded : Prop :=
  ∀ (s : State) (bytes : List Byte) (reqs rest : List Request), s.init = true → s.st = .dm →
    (∀ b ∈ bytes, acceptsMarker s.params b = false) → List.Forall₂ presents reqs bytes → s.pending = reqs ++ rest →
    ∃ t, runSteps reqs.length s = .next t ∧ t = { s with port := t.port, pending := rest }

/-- L1-E 4, R70: the frame SEND builds of a correct marker-free packet, fed back to any idle initialized detector with
the same parameters, delivers the kind and payload byte for byte. -/
def Obligations.SendReceiveRoundTrip : Prop :=
  ∀ (s : State) (k : PacketKind) (hdr body : List Byte) (len : BitVec 16) (h : BufHandle),
    s.init = true → s.port.ans.alloc = some h → isLive h s = false → s.port.ans.write = .ok →
    s.port.ops.payload = hdr ++ body → s.port.ops.payload.length = s.port.ops.len.toNat →
    hdr.length = headerSize k → payloadLen k hdr = some len → lengthOk s.params k len = true →
    body.length = len.toNat →
    ∃ t m bytes, exec (.send k.marker) s = .next t ∧ findBuf h t.bufs = some m ∧
      memRead .buf (1 + s.port.ops.len.toNat) m 0 (1 + s.port.ops.len.toNat) = some bytes ∧
      ∀ (u : State) (reqs rest : List Request), u.init = true → u.st = .dm → u.params = s.params →
        List.Forall₂ presents reqs bytes → u.pending = reqs ++ rest →
        ∃ v, runSteps reqs.length u = .next v ∧ v.st = .dm ∧ v.pending = rest ∧
          v.trace = u.trace ++ [.event (.deliver u.cb k.marker s.port.ops.payload (expLen k len))]
end

