-- ==== Sys2Proof/Laws/Decode.lean ====
section
/-! SUPPORT. The fields of a request word read back what was put in (30_encoding.md R71). -/

namespace Sys2Proof

theorem mkWord_toNat (op : BitVec 3) (data : Byte) : (mkWord op data).toNat = op.toNat * 256 + data.toNat := by
  have h : (mkWord op data).toNat = op.toNat <<< 8 ||| data.toNat := BitVec.toNat_append ..
  rw [h, ← Nat.shiftLeft_add_eq_or_of_lt data.isLt, Nat.shiftLeft_eq]

@[simp] theorem opOf_mkWord (op : BitVec 3) (data : Byte) : opOf (mkWord op data) = op := by
  apply BitVec.eq_of_toNat_eq
  have h1 := op.isLt
  have h2 := data.isLt
  rw [opOf, BitVec.extractLsb'_toNat, mkWord_toNat, Nat.shiftRight_eq_div_pow]
  omega

@[simp] theorem dataOf_mkWord (op : BitVec 3) (data : Byte) : dataOf (mkWord op data) = data := by
  apply BitVec.eq_of_toNat_eq
  have h2 := data.isLt
  rw [dataOf, BitVec.extractLsb'_toNat, mkWord_toNat, Nat.shiftRight_eq_div_pow]
  omega

theorem mkWord_fields (w : ReqWord) : mkWord (opOf w) (dataOf w) = w := by
  apply BitVec.eq_of_toNat_eq
  have h := w.isLt
  rw [mkWord_toNat, opOf, dataOf, BitVec.extractLsb'_toNat, BitVec.extractLsb'_toNat, Nat.shiftRight_eq_div_pow,
    Nat.shiftRight_eq_div_pow]
  omega

theorem zeroDataOnly_eq_ok {op : BitVec 3} {data : Byte} {i j : Instr} :
    zeroDataOnly op data i = .ok j ↔ data = 0x00 ∧ i = j := by
  unfold zeroDataOnly; split <;> simp_all

end Sys2Proof
end

