-- ==== Sys2Proof/Laws/Handles.lean ====
section
/-! SUPPORT. Laws of the handle set `out` and of the live frame buffers: membership, order, lookup. -/

namespace Sys2Proof.Machine

theorem BufHandle.ext_id {a b : BufHandle} (h : a.id = b.id) : a = b := by
  cases a; cases b; cases h; rfl

theorem BufHandle.id_ne {a b : BufHandle} (h : a ≠ b) : a.id ≠ b.id := fun e => h (BufHandle.ext_id e)

theorem mem_insertHandle {h x : BufHandle} {xs : List BufHandle} : x ∈ insertHandle h xs ↔ x = h ∨ x ∈ xs := by
  induction xs with
  | nil => simp [insertHandle]
  | cons y ys ih =>
    simp only [insertHandle]
    split
    · simp
    · split
      · have : h = y := BufHandle.ext_id ‹_›
        subst this; simp
      · simp only [List.mem_cons, ih]; tauto

theorem insertHandle_sorted {h : BufHandle} {xs : List BufHandle} (hx : xs.Pairwise (fun a b => a.id < b.id)) :
    (insertHandle h xs).Pairwise (fun a b => a.id < b.id) := by
  induction xs with
  | nil => simp [insertHandle]
  | cons y ys ih =>
    have ⟨hy, hys⟩ := List.pairwise_cons.1 hx
    simp only [insertHandle]
    split
    · refine List.pairwise_cons.2 ⟨fun z hz => ?_, hx⟩
      rcases List.mem_cons.1 hz with rfl | hz
      · assumption
      · exact Nat.lt_trans ‹_› (hy z hz)
    · split
      · exact hx
      · refine List.pairwise_cons.2 ⟨fun z hz => ?_, ih hys⟩
        rcases mem_insertHandle.1 hz with rfl | hz
        · omega
        · exact hy z hz

theorem mem_eraseHandle {h x : BufHandle} {xs : List BufHandle} : x ∈ eraseHandle h xs ↔ x ∈ xs ∧ x ≠ h := by
  simp only [eraseHandle, List.mem_filter, bne_iff_ne, ne_eq]
  exact and_congr_right fun _ => ⟨fun n e => n (by rw [e]), BufHandle.id_ne⟩

theorem eraseHandle_sorted {h : BufHandle} {xs : List BufHandle} (hx : xs.Pairwise (fun a b => a.id < b.id)) :
    (eraseHandle h xs).Pairwise (fun a b => a.id < b.id) := hx.filter _

/-! ### Frame buffers -/

theorem findBuf_put (h x : BufHandle) (m : Memory) (bs : List (BufHandle × Memory)) :
    findBuf x (putBuf h m bs) = if h = x then some m else findBuf x bs := by
  induction bs with
  | nil => rfl
  | cons c rest ih =>
    obtain ⟨y, k⟩ := c
    simp only [putBuf]
    split
    · rfl
    · split
      · have : h = y := BufHandle.ext_id ‹_›
        subst this
        simp only [findBuf]
        split <;> rfl
      · simp only [findBuf, ih]
        by_cases hy : y = x
        · have : h ≠ x := fun e => by simp_all
          simp [hy, this]
        · simp [hy]

theorem findBuf_drop_same (h : BufHandle) (bs : List (BufHandle × Memory)) : findBuf h (dropBuf h bs) = none := by
  induction bs with
  | nil => rfl
  | cons c rest ih =>
    obtain ⟨y, k⟩ := c
    by_cases hy : y = h
    · subst hy; simpa [dropBuf] using ih
    · simpa [dropBuf, findBuf, hy, BufHandle.id_ne hy] using ih

theorem findBuf_drop_other {h x : BufHandle} (hne : x ≠ h) (bs : List (BufHandle × Memory)) :
    findBuf x (dropBuf h bs) = findBuf x bs := by
  induction bs with
  | nil => rfl
  | cons c rest ih =>
    obtain ⟨y, k⟩ := c
    by_cases hy : y = h
    · subst hy
      have : ¬ y = x := fun e => hne e.symm
      simpa [dropBuf, findBuf, this] using ih
    · have := BufHandle.id_ne hy
      by_cases hx : y = x
      · subst hx; simp [dropBuf, findBuf, this]
      · simpa [dropBuf, findBuf, hx, this] using ih

theorem mem_putBuf {h : BufHandle} {m : Memory} {bs : List (BufHandle × Memory)} {c : BufHandle × Memory}
    (hc : c ∈ putBuf h m bs) : c = (h, m) ∨ c ∈ bs := by
  induction bs with
  | nil => simpa [putBuf] using hc
  | cons d rest ih =>
    obtain ⟨y, k⟩ := d
    simp only [putBuf] at hc
    split at hc
    · exact List.mem_cons.1 hc
    · split at hc
      · exact (List.mem_cons.1 hc).imp_right (List.mem_cons_of_mem _)
      · rcases List.mem_cons.1 hc with rfl | hc
        · exact .inr (List.mem_cons_self ..)
        · exact (ih hc).imp_right (List.mem_cons_of_mem _)

theorem putBuf_sorted {h : BufHandle} {m : Memory} {bs : List (BufHandle × Memory)}
    (hb : bs.Pairwise (fun x y => x.1.id < y.1.id)) : (putBuf h m bs).Pairwise (fun x y => x.1.id < y.1.id) := by
  induction bs with
  | nil => simp [putBuf]
  | cons d rest ih =>
    obtain ⟨y, k⟩ := d
    have ⟨hy, hr⟩ := List.pairwise_cons.1 hb
    simp only [putBuf]
    split
    · refine List.pairwise_cons.2 ⟨fun z hz => ?_, hb⟩
      rcases List.mem_cons.1 hz with rfl | hz
      · assumption
      · exact Nat.lt_trans ‹_› (hy z hz)
    · split
      · exact List.pairwise_cons.2 ⟨fun z hz => by simpa [‹h.id = y.id›] using hy z hz, hr⟩
      · refine List.pairwise_cons.2 ⟨fun z hz => ?_, ih hr⟩
        rcases mem_putBuf hz with rfl | hz
        · show y.id < h.id; omega
        · exact hy z hz

theorem dropBuf_sorted {h : BufHandle} {bs : List (BufHandle × Memory)}
    (hb : bs.Pairwise (fun x y => x.1.id < y.1.id)) : (dropBuf h bs).Pairwise (fun x y => x.1.id < y.1.id) := hb.filter _

theorem mem_dropBuf {h : BufHandle} {bs : List (BufHandle × Memory)} {c : BufHandle × Memory}
    (hc : c ∈ dropBuf h bs) : c ∈ bs := (List.mem_filter.1 hc).1

end Sys2Proof.Machine
end

