-- ==== Sys2Proof/Laws/Memory.lean ====
section
/-! SUPPORT. Laws of the byte regions (20_memory.md R36): a read after a write, the canonical form, and what MemRead and
MemWrite answer. -/

namespace Sys2Proof.Machine

@[simp] theorem Memory.find_nil (i : Nat) : Memory.find [] i = none := rfl

theorem Memory.find_cons (a : Nat) (b : Byte) (m : Memory) (i : Nat) :
    Memory.find ((a, b) :: m) i = if a = i then some b else Memory.find m i := rfl

/-- What is written is what is found; every other index is as it was. -/
theorem Memory.find_write (m : Memory) (i j : Nat) (b : Byte) :
    (m.write i b).find j = if i = j then some b else m.find j := by
  induction m with
  | nil => rfl
  | cons c rest ih =>
    obtain ⟨a, x⟩ := c
    simp only [Memory.write]
    split
    · rfl
    · split
      · simp only [Memory.find_cons]; split <;> simp_all
      · simp only [Memory.find_cons, ih]; split <;> split <;> simp_all

@[simp] theorem Memory.find_write_same (m : Memory) (i : Nat) (b : Byte) : (m.write i b).find i = some b := by
  simp [Memory.find_write]

theorem Memory.find_write_other (m : Memory) {i j : Nat} (b : Byte) (h : i ≠ j) : (m.write i b).find j = m.find j := by
  simp [Memory.find_write, h]

@[simp] theorem Memory.read_write_same (sp : Space) (m : Memory) (i : Nat) (b : Byte) :
    (m.write i b).read sp i = b := by simp [Memory.read]

theorem Memory.read_write_other (sp : Space) (m : Memory) {i j : Nat} (b : Byte) (h : i ≠ j) :
    (m.write i b).read sp j = m.read sp j := by simp [Memory.read, Memory.find_write_other m b h]

/-- Every listed index of a written region was listed or is the one written. -/
theorem Memory.mem_write {m : Memory} {i : Nat} {b : Byte} {c : Host.Cell} (h : c ∈ m.write i b) :
    c.1 = i ∨ c ∈ m := by
  induction m with
  | nil => simp [Memory.write] at h; simp [h]
  | cons x rest ih =>
    obtain ⟨a, y⟩ := x
    simp only [Memory.write] at h
    split at h
    · rcases List.mem_cons.1 h with rfl | h
      · exact .inl rfl
      · exact .inr h
    · split at h
      · rcases List.mem_cons.1 h with rfl | h
        · exact .inl rfl
        · exact .inr (List.mem_cons_of_mem _ h)
      · rcases List.mem_cons.1 h with rfl | h
        · exact .inr (List.mem_cons_self ..)
        · exact (ih h).imp_right (List.mem_cons_of_mem _)

/-- A write keeps the canonical form. -/
theorem Memory.wf_write {m : Memory} (hm : m.wf) (i : Nat) (b : Byte) : (m.write i b).wf := by
  induction m with
  | nil => simp [Memory.write]
  | cons x rest ih =>
    obtain ⟨a, y⟩ := x
    have ⟨hlt, hrest⟩ := List.pairwise_cons.1 hm
    simp only [Memory.write]
    split
    · refine List.pairwise_cons.2 ⟨fun c hc => ?_, hm⟩
      rcases List.mem_cons.1 hc with rfl | hc
      · assumption
      · exact Nat.lt_trans ‹_› (hlt c hc)
    · split
      · exact List.pairwise_cons.2 ⟨fun c hc => by simpa [‹i = a›] using hlt c hc, hrest⟩
      · refine List.pairwise_cons.2 ⟨fun c hc => ?_, ih hrest⟩
        rcases Memory.mem_write hc with h | h
        · show a < c.1; omega
        · exact hlt c h

/-- Equal regions are equal lists: a canonical region is determined by what is found in it. -/
theorem Memory.ext_find {m n : Memory} (hm : m.wf) (hn : n.wf) (h : ∀ i, m.find i = n.find i) : m = n := by
  have below : ∀ {l : Memory} {i : Nat}, (∀ c ∈ l, i < c.1) → l.find i = none := by
    intro l i hl
    induction l with
    | nil => rfl
    | cons c rest ih =>
      obtain ⟨a, b⟩ := c
      have : i < a := hl (a, b) (List.mem_cons_self ..)
      rw [Memory.find_cons, if_neg (by omega)]
      exact ih fun c hc => hl c (List.mem_cons_of_mem _ hc)
  induction m generalizing n with
  | nil =>
    cases n with
    | nil => rfl
    | cons c _ => obtain ⟨a, b⟩ := c; have := h a; simp [Memory.find_cons] at this
  | cons c rest ih =>
    obtain ⟨a, b⟩ := c
    cases n with
    | nil => have := h a; simp [Memory.find_cons] at this
    | cons d rest' =>
      obtain ⟨a', b'⟩ := d
      have ⟨hc, hr⟩ := List.pairwise_cons.1 hm
      have ⟨hc', hr'⟩ := List.pairwise_cons.1 hn
      have haa : a = a' := by
        rcases Nat.lt_trichotomy a a' with hlt | heq | hgt
        · have := h a
          have hnone : Memory.find ((a', b') :: rest') a = none := below fun x hx => by
            rcases List.mem_cons.1 hx with rfl | hx
            · exact hlt
            · exact Nat.lt_trans hlt (hc' x hx)
          rw [hnone] at this
          simp [Memory.find_cons] at this
        · exact heq
        · have := h a'
          have hnone : Memory.find ((a, b) :: rest) a' = none := below fun x hx => by
            rcases List.mem_cons.1 hx with rfl | hx
            · exact hgt
            · exact Nat.lt_trans hgt (hc x hx)
          rw [hnone] at this
          simp [Memory.find_cons] at this
      subst haa
      have hb : b = b' := by have := h a; simpa [Memory.find_cons] using this
      subst hb
      congr 1
      refine ih hr hr' fun i => ?_
      have := h i
      by_cases hi : a = i
      · subst hi; rw [below hc, below hc']
      · simpa [Memory.find_cons, hi] using this

/-! ### MemWrite of several bytes -/

@[simp] theorem Memory.writeAll_nil (m : Memory) (i : Nat) : m.writeAll i [] = m := rfl

theorem Memory.writeAll_cons (m : Memory) (i : Nat) (b : Byte) (bs : List Byte) :
    m.writeAll i (b :: bs) = (m.write i b).writeAll (i + 1) bs := rfl

/-- Byte `j` after a write of `v` from `i`: `v`'s byte inside the range, as before outside it. -/
theorem Memory.find_writeAll (m : Memory) (i : Nat) (v : List Byte) (j : Nat) :
    (m.writeAll i v).find j = if i ≤ j ∧ j < i + v.length then v[j - i]? else m.find j := by
  induction v generalizing m i with
  | nil => rw [if_neg (by simp)]; rfl
  | cons b bs ih =>
    rw [Memory.writeAll_cons, ih]
    by_cases h1 : i + 1 ≤ j ∧ j < i + 1 + bs.length
    · rw [if_pos h1, if_pos (by simp; omega)]
      have : j - i = (j - (i + 1)) + 1 := by omega
      rw [this, List.getElem?_cons_succ]
    · rw [if_neg h1, Memory.find_write]
      by_cases h2 : i = j
      · subst h2; simp
      · rw [if_neg h2, if_neg (by simp; omega)]

theorem Memory.wf_writeAll {m : Memory} (hm : m.wf) (i : Nat) (v : List Byte) : (m.writeAll i v).wf := by
  induction v generalizing m i with
  | nil => exact hm
  | cons b bs ih => exact ih (Memory.wf_write hm i b) (i + 1)

theorem Memory.mem_writeAll {m : Memory} {i : Nat} {v : List Byte} {c : Host.Cell} (h : c ∈ m.writeAll i v) :
    (i ≤ c.1 ∧ c.1 < i + v.length) ∨ c ∈ m := by
  induction v generalizing m i with
  | nil => exact .inr h
  | cons b bs ih =>
    rcases ih h with h | h
    · exact .inl (by simp; omega)
    · rcases Memory.mem_write h with h | h
      · exact .inl (by simp; omega)
      · exact .inr h

/-! ### MemRead and MemWrite -/

theorem inBounds_iff {size i n : Nat} : inBounds size i n = true ↔ n = 0 ∨ i + n ≤ size := by
  simp [inBounds]

/-- MemWrite answers exactly when the access is in bounds, and then it is the write of every byte. -/
theorem memWrite_eq_some {size i : Nat} {m m' : Memory} {v : List Byte} :
    memWrite size m i v = some m' ↔ (v.length = 0 ∨ i + v.length ≤ size) ∧ m.writeAll i v = m' := by
  unfold memWrite
  rw [← inBounds_iff]
  split <;> simp_all

/-- MemRead answers exactly when the access is in bounds, and then it is the bytes in order. -/
theorem memRead_eq_some {sp : Space} {size i n : Nat} {m : Memory} {v : List Byte} :
    memRead sp size m i n = some v ↔
      (n = 0 ∨ i + n ≤ size) ∧ v = (List.range n).map (fun j => m.read sp (i + j)) := by
  unfold memRead
  rw [← inBounds_iff]
  split
  · simp_all only [Option.some.injEq, true_and]; exact eq_comm
  · simp_all

theorem memWrite_of_le {size i : Nat} (m : Memory) {v : List Byte} (h : i + v.length ≤ size) :
    memWrite size m i v = some (m.writeAll i v) := memWrite_eq_some.2 ⟨.inr h, rfl⟩

theorem memRead_of_le (sp : Space) {size i n : Nat} (m : Memory) (h : i + n ≤ size) :
    memRead sp size m i n = some ((List.range n).map fun j => m.read sp (i + j)) := memRead_eq_some.2 ⟨.inr h, rfl⟩

/-- A one-byte write in bounds (the only MemWrite of RX_BYTE but the header copy). -/
theorem memWrite_one {size i : Nat} (m : Memory) (b : Byte) (h : i < size) :
    memWrite size m i [b] = some (m.write i b) := memWrite_of_le m (by simp; omega)

theorem memRead_length {sp : Space} {size i n : Nat} {m : Memory} {v : List Byte} (h : memRead sp size m i n = some v) :
    v.length = n := by rw [(memRead_eq_some.1 h).2]; simp

/-- MemRead depends only on the bytes it reads. -/
theorem memRead_congr (sp : Space) (size : Nat) {m m' : Memory} {i n : Nat}
    (h : ∀ j, j < n → m.find (i + j) = m'.find (i + j)) : memRead sp size m i n = memRead sp size m' i n := by
  unfold memRead
  split
  · refine congrArg some (List.map_congr_left fun j hj => ?_)
    simp [Memory.read, h j (List.mem_range.1 hj)]
  · rfl

/-- MemRead of bytes just written gives them back. -/
theorem memRead_writeAll (sp : Space) {size : Nat} (m : Memory) (i : Nat) {v : List Byte} (h : i + v.length ≤ size) :
    memRead sp size (m.writeAll i v) i v.length = some v := by
  rw [memRead_of_le sp _ h]
  refine congrArg some (List.ext_getElem (by simp) fun j h1 h2 => ?_)
  simp [Memory.read, Memory.find_writeAll, h2]

theorem seqRead_eq_some {bytes v : List Byte} {i n : Nat} :
    seqRead bytes i n = some v ↔ (n = 0 ∨ i + n ≤ bytes.length) ∧ (bytes.drop i).take n = v := by
  unfold seqRead
  rw [← inBounds_iff]
  split <;> simp_all

/-- A payload of exactly `len` bytes is read whole. -/
theorem seqRead_all (bytes : List Byte) : seqRead bytes 0 bytes.length = some bytes :=
  seqRead_eq_some.2 ⟨.inr (by omega), by simp⟩

/-- The frame of a typed SEND: the marker and the payload (42_send.md R110). -/
theorem frame_typed (kind : Byte) (payload : List Byte) :
    frame kind payload payload.length = some (Memory.writeAll [] 0 (kind :: payload)) := by
  rw [frame, seqRead_all]
  simp only
  rw [memWrite_of_le (size := 1 + payload.length) [] (by simp)]
  simp only
  rw [memWrite_of_le _ (by omega)]
  rfl

/-- The bytes of a frame are the marker and the payload, in order. -/
theorem memRead_frame (kind : Byte) (payload : List Byte) :
    memRead .buf (1 + payload.length) (Memory.writeAll [] 0 (kind :: payload)) 0 (1 + payload.length)
      = some (kind :: payload) := by
  have := memRead_writeAll .buf (size := 1 + payload.length) [] 0 (v := kind :: payload) (by simp [Nat.add_comm])
  simpa [Nat.add_comm] using this

/-! ### The canonical form is kept -/

theorem memWrite_wf {size i : Nat} {m m' : Memory} {v : List Byte} (hm : m.wf) (h : memWrite size m i v = some m') :
    m'.wf := (memWrite_eq_some.1 h).2 ▸ Memory.wf_writeAll hm i v

theorem frame_wf {kind : Byte} {payload : List Byte} {n : Nat} {m : Memory} (h : frame kind payload n = some m) :
    m.wf := by
  unfold frame at h
  split at h
  · cases h
  · split at h
    · cases h
    · exact memWrite_wf (memWrite_wf List.Pairwise.nil ‹_›) h

theorem reset_regions_wf : State.reset.scr.wf ∧ State.reset.full.wf ∧ ∀ x ∈ State.reset.bufs, x.2.wf := by
  simp [State.reset]

end Sys2Proof.Machine
end

