-- ==== Sys2Proof/Laws/State.lean ====
section
/-! SUPPORT. One lemma per field per state update, true by rfl, so that no proof unfolds an update. -/

namespace Sys2Proof.Machine

/-! ### emit -/

@[simp] theorem State.emit_params (s : State) (e : Event) : (s.emit e).params = s.params := rfl
@[simp] theorem State.emit_init (s : State) (e : Event) : (s.emit e).init = s.init := rfl
@[simp] theorem State.emit_st (s : State) (e : Event) : (s.emit e).st = s.st := rfl
@[simp] theorem State.emit_kind (s : State) (e : Event) : (s.emit e).kind = s.kind := rfl
@[simp] theorem State.emit_cnt (s : State) (e : Event) : (s.emit e).cnt = s.cnt := rfl
@[simp] theorem State.emit_exp (s : State) (e : Event) : (s.emit e).exp = s.exp := rfl
@[simp] theorem State.emit_scr (s : State) (e : Event) : (s.emit e).scr = s.scr := rfl
@[simp] theorem State.emit_full (s : State) (e : Event) : (s.emit e).full = s.full := rfl
@[simp] theorem State.emit_cb (s : State) (e : Event) : (s.emit e).cb = s.cb := rfl
@[simp] theorem State.emit_out (s : State) (e : Event) : (s.emit e).out = s.out := rfl
@[simp] theorem State.emit_refused (s : State) (e : Event) : (s.emit e).refused = s.refused := rfl
@[simp] theorem State.emit_bufs (s : State) (e : Event) : (s.emit e).bufs = s.bufs := rfl
@[simp] theorem State.emit_resets (s : State) (e : Event) : (s.emit e).resets = s.resets := rfl
@[simp] theorem State.emit_port (s : State) (e : Event) : (s.emit e).port = s.port := rfl
@[simp] theorem State.emit_pending (s : State) (e : Event) : (s.emit e).pending = s.pending := rfl
@[simp] theorem State.emit_trace (s : State) (e : Event) : (s.emit e).trace = s.trace ++ [.event e] := rfl

/-! ### answer -/

@[simp] theorem State.answer_params (s : State) (r : Result) : (s.answer r).params = s.params := rfl
@[simp] theorem State.answer_init (s : State) (r : Result) : (s.answer r).init = s.init := rfl
@[simp] theorem State.answer_st (s : State) (r : Result) : (s.answer r).st = s.st := rfl
@[simp] theorem State.answer_kind (s : State) (r : Result) : (s.answer r).kind = s.kind := rfl
@[simp] theorem State.answer_cnt (s : State) (r : Result) : (s.answer r).cnt = s.cnt := rfl
@[simp] theorem State.answer_exp (s : State) (r : Result) : (s.answer r).exp = s.exp := rfl
@[simp] theorem State.answer_scr (s : State) (r : Result) : (s.answer r).scr = s.scr := rfl
@[simp] theorem State.answer_full (s : State) (r : Result) : (s.answer r).full = s.full := rfl
@[simp] theorem State.answer_cb (s : State) (r : Result) : (s.answer r).cb = s.cb := rfl
@[simp] theorem State.answer_out (s : State) (r : Result) : (s.answer r).out = s.out := rfl
@[simp] theorem State.answer_refused (s : State) (r : Result) : (s.answer r).refused = s.refused := rfl
@[simp] theorem State.answer_bufs (s : State) (r : Result) : (s.answer r).bufs = s.bufs := rfl
@[simp] theorem State.answer_resets (s : State) (r : Result) : (s.answer r).resets = s.resets := rfl
@[simp] theorem State.answer_port (s : State) (r : Result) : (s.answer r).port = s.port := rfl
@[simp] theorem State.answer_pending (s : State) (r : Result) : (s.answer r).pending = s.pending := rfl
@[simp] theorem State.answer_trace (s : State) (r : Result) : (s.answer r).trace = s.trace ++ [.result r] := rfl

/-! ### refuse -/

@[simp] theorem State.refuse_params (s : State) (w : RefuseReason) : (s.refuse w).params = s.params := rfl
@[simp] theorem State.refuse_init (s : State) (w : RefuseReason) : (s.refuse w).init = s.init := rfl
@[simp] theorem State.refuse_st (s : State) (w : RefuseReason) : (s.refuse w).st = s.st := rfl
@[simp] theorem State.refuse_kind (s : State) (w : RefuseReason) : (s.refuse w).kind = s.kind := rfl
@[simp] theorem State.refuse_cnt (s : State) (w : RefuseReason) : (s.refuse w).cnt = s.cnt := rfl
@[simp] theorem State.refuse_exp (s : State) (w : RefuseReason) : (s.refuse w).exp = s.exp := rfl
@[simp] theorem State.refuse_scr (s : State) (w : RefuseReason) : (s.refuse w).scr = s.scr := rfl
@[simp] theorem State.refuse_full (s : State) (w : RefuseReason) : (s.refuse w).full = s.full := rfl
@[simp] theorem State.refuse_cb (s : State) (w : RefuseReason) : (s.refuse w).cb = s.cb := rfl
@[simp] theorem State.refuse_out (s : State) (w : RefuseReason) : (s.refuse w).out = s.out := rfl
@[simp] theorem State.refuse_refused (s : State) (w : RefuseReason) : (s.refuse w).refused = true := rfl
@[simp] theorem State.refuse_bufs (s : State) (w : RefuseReason) : (s.refuse w).bufs = s.bufs := rfl
@[simp] theorem State.refuse_resets (s : State) (w : RefuseReason) : (s.refuse w).resets = s.resets := rfl
@[simp] theorem State.refuse_port (s : State) (w : RefuseReason) : (s.refuse w).port = s.port := rfl
@[simp] theorem State.refuse_pending (s : State) (w : RefuseReason) : (s.refuse w).pending = s.pending := rfl
@[simp] theorem State.refuse_trace (s : State) (w : RefuseReason) : (s.refuse w).trace = s.trace ++ [.refused w] := rfl

/-! ### take -/

@[simp] theorem State.take_params (s : State) (r : Request) (rest : List Request) : (s.take r rest).params = s.params := rfl
@[simp] theorem State.take_init (s : State) (r : Request) (rest : List Request) : (s.take r rest).init = s.init := rfl
@[simp] theorem State.take_st (s : State) (r : Request) (rest : List Request) : (s.take r rest).st = s.st := rfl
@[simp] theorem State.take_kind (s : State) (r : Request) (rest : List Request) : (s.take r rest).kind = s.kind := rfl
@[simp] theorem State.take_cnt (s : State) (r : Request) (rest : List Request) : (s.take r rest).cnt = s.cnt := rfl
@[simp] theorem State.take_exp (s : State) (r : Request) (rest : List Request) : (s.take r rest).exp = s.exp := rfl
@[simp] theorem State.take_scr (s : State) (r : Request) (rest : List Request) : (s.take r rest).scr = s.scr := rfl
@[simp] theorem State.take_full (s : State) (r : Request) (rest : List Request) : (s.take r rest).full = s.full := rfl
@[simp] theorem State.take_cb (s : State) (r : Request) (rest : List Request) : (s.take r rest).cb = s.cb := rfl
@[simp] theorem State.take_out (s : State) (r : Request) (rest : List Request) : (s.take r rest).out = s.out := rfl
@[simp] theorem State.take_refused (s : State) (r : Request) (rest : List Request) : (s.take r rest).refused = s.refused := rfl
@[simp] theorem State.take_bufs (s : State) (r : Request) (rest : List Request) : (s.take r rest).bufs = s.bufs := rfl
@[simp] theorem State.take_resets (s : State) (r : Request) (rest : List Request) : (s.take r rest).resets = s.resets := rfl
@[simp] theorem State.take_port (s : State) (r : Request) (rest : List Request) : (s.take r rest).port = r.port := rfl
@[simp] theorem State.take_pending (s : State) (r : Request) (rest : List Request) : (s.take r rest).pending = rest := rfl
@[simp] theorem State.take_trace (s : State) (r : Request) (rest : List Request) : (s.take r rest).trace = s.trace := rfl

/-! ### consumerReturns -/

@[simp] theorem State.consumerReturns_params (s : State) : s.consumerReturns.params = s.params := rfl
@[simp] theorem State.consumerReturns_init (s : State) : s.consumerReturns.init = s.init := rfl
@[simp] theorem State.consumerReturns_st (s : State) : s.consumerReturns.st = s.st := rfl
@[simp] theorem State.consumerReturns_kind (s : State) : s.consumerReturns.kind = s.kind := rfl
@[simp] theorem State.consumerReturns_cnt (s : State) : s.consumerReturns.cnt = s.cnt := rfl
@[simp] theorem State.consumerReturns_exp (s : State) : s.consumerReturns.exp = s.exp := rfl
@[simp] theorem State.consumerReturns_scr (s : State) : s.consumerReturns.scr = s.scr := rfl
@[simp] theorem State.consumerReturns_full (s : State) : s.consumerReturns.full = s.full := rfl
@[simp] theorem State.consumerReturns_cb (s : State) : s.consumerReturns.cb = s.cb := rfl
@[simp] theorem State.consumerReturns_out (s : State) : s.consumerReturns.out = s.out := rfl
@[simp] theorem State.consumerReturns_refused (s : State) : s.consumerReturns.refused = (s.refused || s.port.consumer.any Call.isRxByte) := rfl
@[simp] theorem State.consumerReturns_bufs (s : State) : s.consumerReturns.bufs = s.bufs := rfl
@[simp] theorem State.consumerReturns_resets (s : State) : s.consumerReturns.resets = s.resets := rfl
@[simp] theorem State.consumerReturns_port (s : State) : s.consumerReturns.port = s.port := rfl
@[simp] theorem State.consumerReturns_pending (s : State) : s.consumerReturns.pending = (s.port.consumer.filter (fun c => !c.isRxByte)).map Call.toRequest ++ s.pending := rfl
@[simp] theorem State.consumerReturns_trace (s : State) : s.consumerReturns.trace = s.trace ++ (s.port.consumer.filter Call.isRxByte).map (fun _ => Output.refused .rxDuringDeliver) := rfl

/-! ### toDM -/

@[simp] theorem State.toDM_params (s : State) : s.toDM.params = s.params := rfl
@[simp] theorem State.toDM_init (s : State) : s.toDM.init = s.init := rfl
@[simp] theorem State.toDM_st (s : State) : s.toDM.st = .dm := rfl
@[simp] theorem State.toDM_kind (s : State) : s.toDM.kind = 0x00 := rfl
@[simp] theorem State.toDM_cnt (s : State) : s.toDM.cnt = 0 := rfl
@[simp] theorem State.toDM_exp (s : State) : s.toDM.exp = 0 := rfl
@[simp] theorem State.toDM_scr (s : State) : s.toDM.scr = s.scr := rfl
@[simp] theorem State.toDM_full (s : State) : s.toDM.full = s.full := rfl
@[simp] theorem State.toDM_cb (s : State) : s.toDM.cb = s.cb := rfl
@[simp] theorem State.toDM_out (s : State) : s.toDM.out = s.out := rfl
@[simp] theorem State.toDM_refused (s : State) : s.toDM.refused = s.refused := rfl
@[simp] theorem State.toDM_bufs (s : State) : s.toDM.bufs = s.bufs := rfl
@[simp] theorem State.toDM_resets (s : State) : s.toDM.resets = s.resets := rfl
@[simp] theorem State.toDM_port (s : State) : s.toDM.port = s.port := rfl
@[simp] theorem State.toDM_pending (s : State) : s.toDM.pending = s.pending := rfl
@[simp] theorem State.toDM_trace (s : State) : s.toDM.trace = s.trace := rfl

/-! ### store -/

@[simp] theorem State.store_params (s : State) (h : BufHandle) (m : Memory) : (s.store h m).params = s.params := rfl
@[simp] theorem State.store_init (s : State) (h : BufHandle) (m : Memory) : (s.store h m).init = s.init := rfl
@[simp] theorem State.store_st (s : State) (h : BufHandle) (m : Memory) : (s.store h m).st = s.st := rfl
@[simp] theorem State.store_kind (s : State) (h : BufHandle) (m : Memory) : (s.store h m).kind = s.kind := rfl
@[simp] theorem State.store_cnt (s : State) (h : BufHandle) (m : Memory) : (s.store h m).cnt = s.cnt := rfl
@[simp] theorem State.store_exp (s : State) (h : BufHandle) (m : Memory) : (s.store h m).exp = s.exp := rfl
@[simp] theorem State.store_scr (s : State) (h : BufHandle) (m : Memory) : (s.store h m).scr = s.scr := rfl
@[simp] theorem State.store_full (s : State) (h : BufHandle) (m : Memory) : (s.store h m).full = s.full := rfl
@[simp] theorem State.store_cb (s : State) (h : BufHandle) (m : Memory) : (s.store h m).cb = s.cb := rfl
@[simp] theorem State.store_out (s : State) (h : BufHandle) (m : Memory) : (s.store h m).out = s.out := rfl
@[simp] theorem State.store_refused (s : State) (h : BufHandle) (m : Memory) : (s.store h m).refused = s.refused := rfl
@[simp] theorem State.store_bufs (s : State) (h : BufHandle) (m : Memory) : (s.store h m).bufs = putBuf h m s.bufs := rfl
@[simp] theorem State.store_resets (s : State) (h : BufHandle) (m : Memory) : (s.store h m).resets = s.resets := rfl
@[simp] theorem State.store_port (s : State) (h : BufHandle) (m : Memory) : (s.store h m).port = s.port := rfl
@[simp] theorem State.store_pending (s : State) (h : BufHandle) (m : Memory) : (s.store h m).pending = s.pending := rfl
@[simp] theorem State.store_trace (s : State) (h : BufHandle) (m : Memory) : (s.store h m).trace = s.trace := rfl

/-! ### release -/

@[simp] theorem State.release_params (s : State) (h : BufHandle) : (s.release h).params = s.params := rfl
@[simp] theorem State.release_init (s : State) (h : BufHandle) : (s.release h).init = s.init := rfl
@[simp] theorem State.release_st (s : State) (h : BufHandle) : (s.release h).st = s.st := rfl
@[simp] theorem State.release_kind (s : State) (h : BufHandle) : (s.release h).kind = s.kind := rfl
@[simp] theorem State.release_cnt (s : State) (h : BufHandle) : (s.release h).cnt = s.cnt := rfl
@[simp] theorem State.release_exp (s : State) (h : BufHandle) : (s.release h).exp = s.exp := rfl
@[simp] theorem State.release_scr (s : State) (h : BufHandle) : (s.release h).scr = s.scr := rfl
@[simp] theorem State.release_full (s : State) (h : BufHandle) : (s.release h).full = s.full := rfl
@[simp] theorem State.release_cb (s : State) (h : BufHandle) : (s.release h).cb = s.cb := rfl
@[simp] theorem State.release_out (s : State) (h : BufHandle) : (s.release h).out = s.out := rfl
@[simp] theorem State.release_refused (s : State) (h : BufHandle) : (s.release h).refused = s.refused := rfl
@[simp] theorem State.release_bufs (s : State) (h : BufHandle) : (s.release h).bufs = dropBuf h s.bufs := rfl
@[simp] theorem State.release_resets (s : State) (h : BufHandle) : (s.release h).resets = s.resets := rfl
@[simp] theorem State.release_port (s : State) (h : BufHandle) : (s.release h).port = s.port := rfl
@[simp] theorem State.release_pending (s : State) (h : BufHandle) : (s.release h).pending = s.pending := rfl
@[simp] theorem State.release_trace (s : State) (h : BufHandle) : (s.release h).trace = s.trace ++ [.event (.free h)] := rfl

/-! ### resetEngine -/

@[simp] theorem State.resetEngine_params (s : State) : (resetEngine s).params = s.params := rfl
@[simp] theorem State.resetEngine_init (s : State) : (resetEngine s).init = false := rfl
@[simp] theorem State.resetEngine_st (s : State) : (resetEngine s).st = .dm := rfl
@[simp] theorem State.resetEngine_kind (s : State) : (resetEngine s).kind = 0x00 := rfl
@[simp] theorem State.resetEngine_cnt (s : State) : (resetEngine s).cnt = 0 := rfl
@[simp] theorem State.resetEngine_exp (s : State) : (resetEngine s).exp = 0 := rfl
@[simp] theorem State.resetEngine_scr (s : State) : (resetEngine s).scr = [] := rfl
@[simp] theorem State.resetEngine_full (s : State) : (resetEngine s).full = [] := rfl
@[simp] theorem State.resetEngine_cb (s : State) : (resetEngine s).cb = none := rfl
@[simp] theorem State.resetEngine_out (s : State) : (resetEngine s).out = [] := rfl
@[simp] theorem State.resetEngine_refused (s : State) : (resetEngine s).refused = s.refused := rfl
@[simp] theorem State.resetEngine_bufs (s : State) : (resetEngine s).bufs = s.bufs := rfl
@[simp] theorem State.resetEngine_resets (s : State) : (resetEngine s).resets = s.resets + 1 := rfl
@[simp] theorem State.resetEngine_port (s : State) : (resetEngine s).port = s.port := rfl
@[simp] theorem State.resetEngine_pending (s : State) : (resetEngine s).pending = s.pending := rfl
@[simp] theorem State.resetEngine_trace (s : State) : (resetEngine s).trace = s.trace := rfl

/-! ### withFetchWord -/

@[simp] theorem State.withFetchWord_params (s : State) (n w : Nat) : (s.withFetchWord n w).params = s.params := rfl
@[simp] theorem State.withFetchWord_init (s : State) (n w : Nat) : (s.withFetchWord n w).init = s.init := rfl
@[simp] theorem State.withFetchWord_st (s : State) (n w : Nat) : (s.withFetchWord n w).st = s.st := rfl
@[simp] theorem State.withFetchWord_kind (s : State) (n w : Nat) : (s.withFetchWord n w).kind = s.kind := rfl
@[simp] theorem State.withFetchWord_cnt (s : State) (n w : Nat) : (s.withFetchWord n w).cnt = s.cnt := rfl
@[simp] theorem State.withFetchWord_exp (s : State) (n w : Nat) : (s.withFetchWord n w).exp = s.exp := rfl
@[simp] theorem State.withFetchWord_scr (s : State) (n w : Nat) : (s.withFetchWord n w).scr = s.scr := rfl
@[simp] theorem State.withFetchWord_full (s : State) (n w : Nat) : (s.withFetchWord n w).full = s.full := rfl
@[simp] theorem State.withFetchWord_cb (s : State) (n w : Nat) : (s.withFetchWord n w).cb = s.cb := rfl
@[simp] theorem State.withFetchWord_out (s : State) (n w : Nat) : (s.withFetchWord n w).out = s.out := rfl
@[simp] theorem State.withFetchWord_refused (s : State) (n w : Nat) : (s.withFetchWord n w).refused = s.refused := rfl
@[simp] theorem State.withFetchWord_bufs (s : State) (n w : Nat) : (s.withFetchWord n w).bufs = s.bufs := rfl
@[simp] theorem State.withFetchWord_resets (s : State) (n w : Nat) : (s.withFetchWord n w).resets = s.resets := rfl
@[simp] theorem State.withFetchWord_port (s : State) (n w : Nat) : (s.withFetchWord n w).port = s.port := rfl
@[simp] theorem State.withFetchWord_pending (s : State) (n w : Nat) : (s.withFetchWord n w).pending = { code := codeOfTable n w, port := s.port } :: s.pending := rfl
@[simp] theorem State.withFetchWord_trace (s : State) (n w : Nat) : (s.withFetchWord n w).trace = s.trace := rfl

end Sys2Proof.Machine
end

