-- ==== Sys2Proof/Laws/Ops.lean ====
section
/-! SUPPORT. What each shared operation and each meaning can do, said once: catalog facts, the cases of the receive
operation, and the cases of a step. Later proofs cite these and do not unfold the operations. -/

namespace Sys2Proof.Machine

/-! ### The catalog -/

theorem kindOf_marker (k : PacketKind) : kindOf k.marker = some k := by cases k <;> decide

theorem kindOf_eq_some {b : Byte} {k : PacketKind} : kindOf b = some k ↔ b = k.marker := by
  constructor
  · intro h
    unfold kindOf at h
    split at h
    · cases h; assumption
    · split at h
      · cases h; assumption
      · split at h
        · cases h; assumption
        · cases h
  · rintro rfl; exact kindOf_marker k

theorem marker_ne_sync (k : PacketKind) : k.marker ≠ 0x03 := by cases k <;> decide

theorem kindOf_ne_sync {b : Byte} {k : PacketKind} (h : kindOf b = some k) : b ≠ 0x03 :=
  kindOf_eq_some.1 h ▸ marker_ne_sync k

theorem headerSize_pos (k : PacketKind) : 2 ≤ headerSize k := by cases k <;> decide

theorem headerSize_le (k : PacketKind) : headerSize k ≤ 4 := by cases k <;> decide

theorem fullSize_ge (p : Params) : 258 ≤ fullSize p := by unfold fullSize; omega

theorem fullSize_le (p : Params) : fullSize p ≤ 65538 := by unfold fullSize; omega

/-- `expLen` does not wrap (40_catalog.md R84). -/
theorem expLen_toNat (k : PacketKind) (p : BitVec 16) : (expLen k p).toNat = headerSize k + p.toNat := by
  have := headerSize_le k
  have := p.isLt
  simp [expLen, BitVec.toNat_add]
  omega

/-- A header of `H(k)` bytes declares a length (R81). -/
theorem payloadLen_isSome (k : PacketKind) {hdr : List Byte} (h : hdr.length = headerSize k) :
    ∃ len, payloadLen k hdr = some len := by
  cases k <;> simp only [headerSize] at h
  · match hdr, h with | [_, _, _], _ => exact ⟨_, rfl⟩
  · match hdr, h with | [_, _, _, _], _ => exact ⟨_, rfl⟩
  · match hdr, h with | [_, _], _ => exact ⟨_, rfl⟩

/-- `P` of a Command or Event is an 8-bit length (R81). -/
theorem payloadLen_small {k : PacketKind} {hdr : List Byte} {len : BitVec 16} (h : payloadLen k hdr = some len)
    (hk : k ≠ .acl) : len.toNat ≤ 255 := by
  unfold payloadLen at h
  split at h
  · next h2 => cases h; have := h2.isLt; simp; omega
  · exact absurd rfl hk
  · next h1 => cases h; have := h1.isLt; simp; omega
  · cases h

/-- A packet that passes its guard fits `FULL` (R82, R84). -/
theorem expLen_le_fullSize {p : Params} {k : PacketKind} {hdr : List Byte} {len : BitVec 16}
    (h : payloadLen k hdr = some len) (hg : lengthOk p k len = true) : (expLen k len).toNat ≤ fullSize p := by
  rw [expLen_toNat]
  have := fullSize_ge p
  cases k with
  | command => have := payloadLen_small h (by simp); simp only [headerSize]; omega
  | acl => simp only [lengthOk, decide_eq_true_eq] at hg; simp only [headerSize, fullSize]; omega
  | event => have := payloadLen_small h (by simp); simp only [headerSize]; omega

/-! ### Counts -/

theorem count_succ {c : Count} {n : Nat} (h : c.toNat < n) (hn : n ≤ 65538) : (c + 1).toNat = c.toNat + 1 := by
  simp [BitVec.toNat_add]; omega

theorem count_pred {c : Count} {n : Nat} (h : c.toNat = 1 + n) : (c - 1).toNat = n := by
  have := c.isLt
  simp [BitVec.toNat_sub]; omega

theorem count_eq_iff {a b : Count} : a = b ↔ a.toNat = b.toNat := BitVec.toNat_inj.symm

/-! ### Dispatch -/

/-- The state after a dispatch that delivers `bytes`. -/
abbrev delivered (s : State) (bytes : List Byte) : State :=
  ((s.emit (.deliver s.cb s.kind bytes s.exp)).consumerReturns).toDM

/-- The bytes a dispatch delivers. -/
theorem dispatch_of_le {s : State} (h : s.exp.toNat ≤ fullSize s.params) :
    dispatch s = .next (delivered s ((List.range s.exp.toNat).map fun j => s.full.read (.full s.resets) j)) := by
  unfold dispatch
  rw [memRead_of_le _ _ (by omega)]
  simp

theorem dispatch_next {s t : State} (h : dispatch s = .next t) :
    ∃ bytes, memRead (.full s.resets) (fullSize s.params) s.full 0 s.exp.toNat = some bytes ∧ t = delivered s bytes := by
  unfold dispatch at h
  split at h
  · cases h
  · cases h; exact ⟨_, ‹_›, rfl⟩

/-! ### The receive operation -/

/-- The state after a header byte is stored and counted (41_receive.md R93). -/
abbrev headerStored (b : Byte) (s : State) : State :=
  { s with scr := s.scr.write s.cnt.toNat b, cnt := s.cnt + 1 }

/-- The state after an accepted header (R96, R97). -/
abbrev headerAccepted (k : PacketKind) (hdr : List Byte) (len : BitVec 16) (s : State) : State :=
  { s with exp := expLen k len, st := .pip, full := s.full.writeAll 0 hdr, cnt := s.cnt - 1 }

/-- The state after a payload byte is stored and counted (R99). -/
abbrev payloadStored (b : Byte) (s : State) : State :=
  { s with full := s.full.write s.cnt.toNat b, cnt := s.cnt + 1 }

/-- Everything the receive operation can do when it answers a next state. -/
inductive ReceiveCase (b : Byte) (s : State) : State → Prop where
  | lost (h : s.init = false) : ReceiveCase b s s
  | discarded (h : s.init = true) (hst : s.st = .dm) (ha : acceptsMarker s.params b = false) : ReceiveCase b s s
  | accepted (h : s.init = true) (hst : s.st = .dm) (ha : acceptsMarker s.params b = true) :
      ReceiveCase b s { s with kind := b, scr := s.scr.write 0 b, cnt := 1, st := .dh }
  | absorbed (h : s.init = true) (hst : s.st = .dh) (hk : s.kind = 0x03) : ReceiveCase b s s
  | header (k : PacketKind) (h : s.init = true) (hst : s.st = .dh) (hk : kindOf s.kind = some k) (hc : s.cnt.toNat < 5)
      (hn : s.cnt.toNat ≠ headerSize k) : ReceiveCase b s (headerStored b s)
  | aborted (k : PacketKind) (hdr : List Byte) (len : BitVec 16) (h : s.init = true) (hst : s.st = .dh)
      (hk : kindOf s.kind = some k) (hc : s.cnt.toNat = headerSize k)
      (hr : memRead (.scr s.resets) 5 (headerStored b s).scr 1 (headerSize k) = some hdr) (hp : payloadLen k hdr = some len)
      (hg : lengthOk s.params k len = false) : ReceiveCase b s (headerStored b s).toDM
  | begun (k : PacketKind) (hdr : List Byte) (len : BitVec 16) (h : s.init = true) (hst : s.st = .dh)
      (hk : kindOf s.kind = some k) (hc : s.cnt.toNat = headerSize k)
      (hr : memRead (.scr s.resets) 5 (headerStored b s).scr 1 (headerSize k) = some hdr) (hp : payloadLen k hdr = some len)
      (hg : lengthOk s.params k len = true) (hz : len ≠ 0) :
      ReceiveCase b s (headerAccepted k hdr len (headerStored b s))
  | headerOnly (k : PacketKind) (hdr : List Byte) (len : BitVec 16) (h : s.init = true) (hst : s.st = .dh)
      (hk : kindOf s.kind = some k) (hc : s.cnt.toNat = headerSize k)
      (hr : memRead (.scr s.resets) 5 (headerStored b s).scr 1 (headerSize k) = some hdr) (hp : payloadLen k hdr = some len)
      (hg : lengthOk s.params k len = true) (hz : len = 0) :
      ReceiveCase b s (delivered (headerAccepted k hdr len (headerStored b s)) hdr)
  | payload (h : s.init = true) (hst : s.st = .pip) (hc : s.cnt.toNat < fullSize s.params)
      (hn : s.cnt.toNat + 1 ≠ s.exp.toNat) : ReceiveCase b s (payloadStored b s)
  | completed (bytes : List Byte) (h : s.init = true) (hst : s.st = .pip) (hc : s.cnt.toNat < fullSize s.params)
      (hn : s.cnt.toNat + 1 = s.exp.toNat)
      (hr : memRead (.full s.resets) (fullSize s.params) (payloadStored b s).full 0 s.exp.toNat = some bytes) :
      ReceiveCase b s (delivered (payloadStored b s) bytes)

theorem memRead_header {n : Nat} {p : Params} {m : Memory} {k : PacketKind} {hdr : List Byte} (h : hdr.length = headerSize k) :
    memRead (.full n) (fullSize p) (m.writeAll 0 hdr) 0 (headerSize k) = some hdr := by
  have := headerSize_le k
  have := fullSize_ge p
  rw [← h]
  exact memRead_writeAll (.full n) m 0 (by omega)

/-- The complete header, when `cnt` counts the marker and the header. -/
theorem headerComplete_eq {k : PacketKind} {s : State} (hc : s.cnt.toNat = 1 + headerSize k) :
    ∃ hdr len, memRead (.scr s.resets) 5 s.scr 1 (headerSize k) = some hdr ∧ hdr.length = headerSize k ∧
      payloadLen k hdr = some len ∧
      headerComplete k s =
        if lengthOk s.params k len = true then
          if len = 0 then .next (delivered (headerAccepted k hdr len s) hdr)
          else .next (headerAccepted k hdr len s)
        else .next s.toDM := by
  have h4 := headerSize_le k
  have h258 := fullSize_ge s.params
  obtain ⟨hdr, hr⟩ : ∃ hdr, memRead (.scr s.resets) 5 s.scr 1 (headerSize k) = some hdr :=
    ⟨_, memRead_of_le (.scr s.resets) s.scr (by omega)⟩
  have hl := memRead_length hr
  obtain ⟨len, hlen⟩ := payloadLen_isSome k hl
  refine ⟨hdr, len, hr, hl, hlen, ?_⟩
  unfold headerComplete
  simp only [Config.scratchSize, hr, hlen]
  split
  · rw [memWrite_of_le (size := fullSize s.params) s.full (v := hdr) (by omega)]
    simp only
    have hexp := expLen_toNat k len
    have hpred := count_pred hc
    have hz : s.cnt - 1 = expLen k len ↔ len = 0 := by
      rw [count_eq_iff, hexp, hpred, ← BitVec.toNat_inj]; simp
    by_cases h0 : len = 0
    · rw [if_pos (hz.2 h0), if_pos h0]
      subst h0
      unfold dispatch
      have : (expLen k 0).toNat = headerSize k := by rw [hexp]; simp
      simp only [this, memRead_header hl]
    · rw [if_neg fun e => h0 (hz.1 e), if_neg h0]
  · rfl

/-- Everything the receive operation can do when it answers a next state. -/
theorem receiveByte_cases {b : Byte} {s t : State} (h : receiveByte b s = .next t) : ReceiveCase b s t := by
  unfold receiveByte at h
  split at h
  · next hi =>
    split at h
    · next hst =>
      unfold receiveMarker at h
      split at h
      · next ha =>
        simp only [Config.scratchSize, memWrite_one s.scr b (show 0 < 5 by omega)] at h
        cases h; exact .accepted hi hst ha
      · next ha => cases h; exact .discarded hi hst (by simpa using ha)
    · next hst =>
      unfold receiveHeader at h
      split at h
      · next hk => cases h; exact .absorbed hi hst hk
      · split at h
        · cases h
        · next k hk =>
          split at h
          · cases h
          · next scr hw =>
            obtain ⟨hb, rfl⟩ := memWrite_eq_some.1 hw
            have hc : s.cnt.toNat < 5 := by
              simp [Config.scratchSize] at hb; omega
            have hsucc := count_succ (n := 5) hc (by omega)
            simp only at h
            split at h
            · next hn =>
              rw [hsucc] at hn
              have hcnt : (headerStored b s).cnt.toNat = 1 + headerSize k := by show (s.cnt + 1).toNat = _; omega
              obtain ⟨hdr, len, hr, _, hp, he⟩ := headerComplete_eq (s := headerStored b s) hcnt
              change headerComplete k (headerStored b s) = _ at h
              rw [he] at h
              split at h
              · split at h
                · cases h; exact .headerOnly k hdr len hi hst hk (by omega) hr hp ‹_› ‹_›
                · cases h; exact .begun k hdr len hi hst hk (by omega) hr hp ‹_› ‹_›
              · cases h; exact .aborted k hdr len hi hst hk (by omega) hr hp (Bool.eq_false_iff.2 ‹¬ _›)
            · next hn =>
              rw [hsucc] at hn
              cases h; exact .header k hi hst hk hc (by omega)
    · next hst =>
      unfold receivePayload at h
      split at h
      · cases h
      · next full hw =>
        obtain ⟨hb, rfl⟩ := memWrite_eq_some.1 hw
        have hc : s.cnt.toNat < fullSize s.params := by simp at hb; omega
        have hsucc := count_succ hc (fullSize_le _)
        simp only at h
        split at h
        · next hn =>
          rw [count_eq_iff, hsucc] at hn
          obtain ⟨bytes, hr, rfl⟩ := dispatch_next h
          exact .completed bytes hi hst hc hn hr
        · next hn =>
          rw [count_eq_iff, hsucc] at hn
          cases h; exact .payload hi hst hc hn
    · cases h
  · next hi => cases h; exact .lost (by simpa using hi)

/-- DetectMarker always answers. -/
theorem receiveMarker_eq (b : Byte) (s : State) :
    receiveMarker b s =
      if acceptsMarker s.params b = true then
        .next { s with kind := b, scr := s.scr.write 0 b, cnt := 1, st := .dh }
      else .next s := by
  unfold receiveMarker
  simp only [Config.scratchSize, memWrite_one s.scr b (show 0 < 5 by omega)]

/-! ### The receive operation, arm by arm -/

theorem receiveByte_dm {s : State} (b : Byte) (hi : s.init = true) (hst : s.st = .dm) :
    receiveByte b s = receiveMarker b s := by unfold receiveByte; rw [if_pos hi, hst]

theorem receiveByte_dh {s : State} (b : Byte) (hi : s.init = true) (hst : s.st = .dh) :
    receiveByte b s = receiveHeader b s := by unfold receiveByte; rw [if_pos hi, hst]

theorem receiveByte_pip {s : State} (b : Byte) (hi : s.init = true) (hst : s.st = .pip) :
    receiveByte b s = receivePayload b s := by unfold receiveByte; rw [if_pos hi, hst]

/-- A header byte that does not complete the header (R93). -/
theorem receiveByte_header {b : Byte} {s : State} {k : PacketKind} (hi : s.init = true) (hst : s.st = .dh)
    (hk : kindOf s.kind = some k) (hc : s.cnt.toNat < 5) (hn : s.cnt.toNat ≠ headerSize k) :
    receiveByte b s = .next (headerStored b s) := by
  rw [receiveByte_dh b hi hst, receiveHeader, if_neg (kindOf_ne_sync hk)]
  simp only [hk, Config.scratchSize, memWrite_one s.scr b hc, count_succ (n := 5) hc (by omega)]
  rw [if_neg (by omega)]

/-- The last header byte (R94 to R98). -/
theorem receiveByte_lastHeader {b : Byte} {s : State} {k : PacketKind} {hdr : List Byte} {len : BitVec 16}
    (hi : s.init = true) (hst : s.st = .dh) (hk : kindOf s.kind = some k) (hc : s.cnt.toNat = headerSize k)
    (hr : memRead (.scr s.resets) 5 (s.scr.write s.cnt.toNat b) 1 (headerSize k) = some hdr) (hp : payloadLen k hdr = some len) :
    receiveByte b s =
      if lengthOk s.params k len = true then
        if len = 0 then .next (delivered (headerAccepted k hdr len (headerStored b s)) hdr)
        else .next (headerAccepted k hdr len (headerStored b s))
      else .next (headerStored b s).toDM := by
  have := headerSize_le k
  have h5 : s.cnt.toNat < 5 := by omega
  have hsucc := count_succ (n := 5) h5 (by omega)
  rw [receiveByte_dh b hi hst, receiveHeader, if_neg (kindOf_ne_sync hk)]
  simp only [hk, Config.scratchSize, memWrite_one s.scr b h5, hsucc]
  rw [if_pos (by omega)]
  obtain ⟨hdr', len', hr', -, hp', he⟩ := headerComplete_eq (s := headerStored b s) (k := k)
    (show (s.cnt + 1).toNat = _ by omega)
  obtain rfl : hdr = hdr' := Option.some.inj (hr.symm.trans hr')
  obtain rfl : len = len' := Option.some.inj (hp.symm.trans hp')
  exact he

/-- A payload byte before the last (R99). -/
theorem receiveByte_payload {b : Byte} {s : State} (hi : s.init = true) (hst : s.st = .pip)
    (hc : s.cnt.toNat < fullSize s.params) (hn : s.cnt.toNat + 1 ≠ s.exp.toNat) :
    receiveByte b s = .next (payloadStored b s) := by
  rw [receiveByte_pip b hi hst, receivePayload, memWrite_one s.full b hc]
  simp only [count_eq_iff, count_succ hc (fullSize_le _)]
  rw [if_neg hn]

/-- The last payload byte (R99, R100). -/
theorem receiveByte_lastPayload {b : Byte} {s : State} (hi : s.init = true) (hst : s.st = .pip)
    (hc : s.cnt.toNat < fullSize s.params) (hn : s.cnt.toNat + 1 = s.exp.toNat) :
    receiveByte b s = .next (delivered (payloadStored b s)
      ((List.range s.exp.toNat).map fun j => (s.full.write s.cnt.toNat b).read (.full s.resets) j)) := by
  rw [receiveByte_pip b hi hst, receivePayload, memWrite_one s.full b hc]
  simp only [count_eq_iff, count_succ hc (fullSize_le _)]
  rw [if_pos hn]
  exact dispatch_of_le (s := payloadStored b s) (show s.exp.toNat ≤ fullSize s.params by omega)

/-- Every wire byte is received as RX_BYTE of that byte (30_encoding.md R69, 60_exceptions.md R137). -/
theorem exec_decodeMarker (b : Byte) (s : State) : exec (decodeMarker b) s = receiveByte b s := by
  unfold decodeMarker
  split
  · subst_vars; rfl
  · split
    · subst_vars; rfl
    · split
      · subst_vars; rfl
      · split
        · subst_vars; rfl
        · rfl

theorem exec_rxByte (b : Byte) (s : State) : exec (.rxByte b) s = receiveByte b s := rfl

/-- Every instruction of the receive path receives the byte it presents. -/
theorem exec_presented {i : Instr} {b : Byte} (h : presentedByte i = some b) (s : State) :
    exec i s = receiveByte b s := by
  cases i <;> simp only [presentedByte, Option.some.injEq, reduceCtorEq] at h <;> subst h <;> rfl

/-! ### A step -/

theorem step_nil {s : State} (h : s.pending = []) : step s = .next s := by unfold step; rw [h]

theorem step_cons {s : State} {r : Request} {rest : List Request} {i : Instr} (h : s.pending = r :: rest)
    (hd : decode r.code = .ok i) : step s = exec i (s.take r rest) := by unfold step; rw [h]; simp only [hd]

theorem step_refused {s : State} {r : Request} {rest : List Request} {e : DecodeError} (h : s.pending = r :: rest)
    (hd : decode r.code = .error e) : step s = .next ((s.take r rest).refuse (refusalOf e)) := by
  unfold step; rw [h]; simp only [hd]

/-- Everything a step can do when it answers a next state. -/
theorem step_next {s t : State} (h : step s = .next t) :
    (s.pending = [] ∧ t = s) ∨
      (∃ r rest i, s.pending = r :: rest ∧ decode r.code = .ok i ∧ exec i (s.take r rest) = .next t) ∨
      ∃ r rest e, s.pending = r :: rest ∧ decode r.code = .error e ∧ t = (s.take r rest).refuse (refusalOf e) := by
  cases hp : s.pending with
  | nil => rw [step_nil hp] at h; cases h; exact .inl ⟨rfl, rfl⟩
  | cons r rest =>
    cases hd : decode r.code with
    | ok i => rw [step_cons hp hd] at h; exact .inr (.inl ⟨r, rest, i, rfl, hd, h⟩)
    | error e => rw [step_refused hp hd] at h; cases h; exact .inr (.inr ⟨r, rest, e, rfl, hd, rfl⟩)

end Sys2Proof.Machine
end

