-- ==== Sys2Proof/Laws/Exec.lean ====
section
/-! SUPPORT. Everything each request of the send path, the hand-off and the initializer can do when it answers a next
state, said once. -/

namespace Sys2Proof.Machine

/-- SEND (42_send.md R116). -/
inductive SendCase (kind : Byte) (s : State) : State → Prop where
  | beforeInit (hi : s.init = false) : SendCase kind s (s.refuse .sendBeforeInit)
  | outOfMemory (hi : s.init = true) (ha : s.port.ans.alloc = none) :
      SendCase kind s ((s.emit (.alloc (1 + s.port.ops.len.toNat))).answer .outOfMemory)
  | stale (h : BufHandle) (hi : s.init = true) (ha : s.port.ans.alloc = some h) (hl : isLive h s = true) :
      SendCase kind s (s.refuse .allocNotFresh)
  | failed (h : BufHandle) (m : Memory) (hi : s.init = true) (ha : s.port.ans.alloc = some h)
      (hl : isLive h s = false) (hm : frame kind s.port.ops.payload s.port.ops.len.toNat = some m)
      (hw : s.port.ans.write = .fail) :
      SendCase kind s
        (((((s.emit (.alloc (1 + s.port.ops.len.toNat))).store h m).emit
          (.write h (1 + s.port.ops.len.toNat) h)).release h).answer .transportError)
  | submitted (h : BufHandle) (m : Memory) (hi : s.init = true) (ha : s.port.ans.alloc = some h)
      (hl : isLive h s = false) (hm : frame kind s.port.ops.payload s.port.ops.len.toNat = some m)
      (hw : s.port.ans.write = .ok) :
      SendCase kind s
        (State.answer { ((s.emit (.alloc (1 + s.port.ops.len.toNat))).store h m).emit
            (.write h (1 + s.port.ops.len.toNat) h) with out := insertHandle h s.out } .ok)

theorem execSend_cases {kind : Byte} {s t : State} (h : exec (.send kind) s = .next t) : SendCase kind s t := by
  change execSend kind s = _ at h
  unfold execSend at h
  split at h
  · next hi =>
    simp only at h
    split at h
    · next ha => cases h; exact .outOfMemory hi ha
    · next hd ha =>
      split at h
      · next hl => cases h; exact .stale hd hi ha hl
      · next hl =>
        split at h
        · cases h
        · next m hm =>
          split at h
          · next hw => cases h; exact .failed hd m hi ha (by simpa using hl) hm hw
          · next hw => cases h; exact .submitted hd m hi ha (by simpa using hl) hm hw
  · next hi => cases h; exact .beforeInit (by simpa using hi)

/-- TX_DONE (R117). -/
inductive TxDoneCase (s : State) : State → Prop where
  | unknown (hm : s.port.ops.h ∉ s.out) : TxDoneCase s (s.refuse .unknownCompletion)
  | released (hm : s.port.ops.h ∈ s.out) :
      TxDoneCase s { s.release s.port.ops.h with out := eraseHandle s.port.ops.h s.out }

theorem execTxDone_cases {s t : State} (h : exec .txDone s = .next t) : TxDoneCase s t := by
  change execTxDone s = _ at h
  unfold execTxDone at h
  simp only at h
  split at h
  · next hm => cases h; exact .released (by simpa using hm)
  · next hm => cases h; exact .unknown (by simpa using hm)

/-- HANDOFF (43_handoff.md R124). -/
inductive HandoffCase (s : State) : State → Prop where
  | invalid : HandoffCase s (s.answer .transportError)
  | forwarded (m : Byte) (bytes : List Byte) (hv : handoffValid m = true) :
      HandoffCase s (((s.emit (.receive m bytes (s.port.ops.n.toNat - 1))).emit (.free s.port.ops.hb)).answer
        (.upper s.port.ans.receive))

theorem execHandoff_cases {s t : State} (h : exec .handoff s = .next t) : HandoffCase s t := by
  change execHandoff s = _ at h
  unfold execHandoff at h
  simp only at h
  split at h
  · cases h; exact .invalid
  · split at h
    · cases h
    · split at h
      · next hv =>
        split at h
        · cases h
        · cases h; exact .forwarded _ _ hv
      · cases h; exact .invalid

/-- INIT (44_lifecycle.md R130). -/
inductive InitCase (s : State) : State → Prop where
  | noCallback (hc : s.port.ops.cb = none) : InitCase s (s.refuse .initWithoutCallback)
  | again (c : Callback) (hc : s.port.ops.cb = some c) (hi : s.init = true) :
      InitCase s (s.answer .alreadyInitialized)
  | failed (c : Callback) (hc : s.port.ops.cb = some c) (hi : s.init = false) (ha : s.port.ans.acquire = .fail) :
      InitCase s ((s.emit (.acquire s.port.ops.cfg)).answer .transportError)
  | initialized (c : Callback) (hc : s.port.ops.cb = some c) (hi : s.init = false) (ha : s.port.ans.acquire = .ok) :
      InitCase s (State.answer { (s.emit (.acquire s.port.ops.cfg)).toDM with cb := some c, init := true } .ok)

theorem execInit_cases {s t : State} (h : exec .init s = .next t) : InitCase s t := by
  change execInit s = _ at h
  unfold execInit at h
  split at h
  · next hc => cases h; exact .noCallback hc
  · next c hc =>
    split at h
    · next hi => cases h; exact .again c hc hi
    · next hi =>
      simp only at h
      split at h
      · next ha => cases h; exact .failed c hc (by simpa using hi) ha
      · next ha => cases h; exact .initialized c hc (by simpa using hi) ha

/-- Everything an instruction can do when it answers a next state. -/
inductive ExecCase (i : Instr) (s t : State) : Prop where
  | receive (b : Byte) (hb : presentedByte i = some b) (h : ReceiveCase b s t)
  | send (kind : Byte) (hk : i = .send kind) (h : SendCase kind s t)
  | txDone (hk : i = .txDone) (h : TxDoneCase s t)
  | handoff (hk : i = .handoff) (h : HandoffCase s t)
  | init (hk : i = .init) (h : InitCase s t)
  | reserved (op : BitVec 3) (hk : agentOf i = none) (h : t = s.refuse (.reservedOp op))

theorem exec_cases {i : Instr} {s t : State} (h : exec i s = .next t) : ExecCase i s t := by
  cases i with
  | init => exact .init rfl (execInit_cases h)
  | send kind => exact .send kind rfl (execSend_cases h)
  | txDone => exact .txDone rfl (execTxDone_cases h)
  | handoff => exact .handoff rfl (execHandoff_cases h)
  | rxByte b => exact .receive b rfl (receiveByte_cases h)
  | markerCmd => exact .receive 0x01 rfl (receiveByte_cases h)
  | markerAcl => exact .receive 0x02 rfl (receiveByte_cases h)
  | markerSync => exact .receive 0x03 rfl (receiveByte_cases h)
  | markerEvt => exact .receive 0x04 rfl (receiveByte_cases h)
  | markerOther b => exact .receive b rfl (receiveByte_cases h)
  | reservedOp5 _ => cases h; exact .reserved 5 rfl rfl
  | reservedOp6 _ => cases h; exact .reserved 6 rfl rfl
  | reservedOp7 _ => cases h; exact .reserved 7 rfl rfl

/-- A receive step depends only on the receive view, and a request of the send path on none of it. -/
theorem agentOf_receive {i : Instr} : agentOf i = some .receive ↔ ∃ b, presentedByte i = some b := by
  cases i <;> simp [agentOf, presentedByte]

end Sys2Proof.Machine
end

