-- ==== Sys2Proof/Laws/PerInstr.lean ====
section
/-! SUPPORT. The per-instruction family RowMatch: the code of a well-formed instruction has the width and the fixed bits of
that instruction's row of opcode_table.json. One lemma per constructor. -/

namespace Sys2Proof.Laws.RowMatch

open Sys2Proof

/-- The encoding lies in the instruction's own row. -/
def Statement (i : Instr) : Prop := i.wellFormed = true → (encode i).matchesRow (tableRow i) = true

theorem init : Statement .init := by unfold Statement; decide
theorem rxByte (b : Byte) : Statement (.rxByte b) := by unfold Statement; decide +revert
theorem send (kind : Byte) : Statement (.send kind) := by unfold Statement; decide +revert
theorem txDone : Statement .txDone := by unfold Statement; decide
theorem handoff : Statement .handoff := by unfold Statement; decide
theorem reservedOp5 (d : Byte) : Statement (.reservedOp5 d) := by unfold Statement; decide +revert
theorem reservedOp6 (d : Byte) : Statement (.reservedOp6 d) := by unfold Statement; decide +revert
theorem reservedOp7 (d : Byte) : Statement (.reservedOp7 d) := by unfold Statement; decide +revert
theorem markerCmd : Statement .markerCmd := by unfold Statement; decide
theorem markerAcl : Statement .markerAcl := by unfold Statement; decide
theorem markerSync : Statement .markerSync := by unfold Statement; decide
theorem markerEvt : Statement .markerEvt := by unfold Statement; decide
theorem markerOther (b : Byte) : Statement (.markerOther b) := by unfold Statement; decide +revert

end Sys2Proof.Laws.RowMatch
end

