-- ==== Sys2Proof/Laws/Run.lean ====
section
/-! SUPPORT. Runs of several steps, and what a request that presents a byte makes a step do. -/

namespace Sys2Proof.Machine

@[simp] theorem runSteps_zero (s : State) : runSteps 0 s = .next s := rfl

/-- A run whose first step answers a next state goes on from there. -/
theorem runSteps_next {s t : State} (n : Nat) (h : step s = .next t) : runSteps (n + 1) s = runSteps n t := by
  have h' : Sys2Proof.core.step s = .next t := h
  simp only [runSteps, Host.Core.run, h']
  rfl

/-- A run of `n + 1` steps that answers a next state takes a first step to one. -/
theorem runSteps_succ {n : Nat} {s u : State} (h : runSteps (n + 1) s = .next u) :
    ∃ t, step s = .next t ∧ runSteps n t = .next u := by
  cases hs : step s with
  | next t => exact ⟨t, rfl, (runSteps_next n hs).symm.trans h⟩
  | fault r =>
    have h' : Sys2Proof.core.step s = .fault r := hs
    simp only [runSteps, Host.Core.run, h'] at h
    cases h
  | refused r =>
    have h' : Sys2Proof.core.step s = .refused r := hs
    simp only [runSteps, Host.Core.run, h'] at h
    cases h

/-- A step whose request presents the byte `b` receives it, and its consumer issues nothing. -/
theorem step_presents {s : State} {r : Request} {rest : List Request} {b : Byte} (h : s.pending = r :: rest)
    (hp : presents r b) : step s = receiveByte b (s.take r rest) := by
  rcases hp.1 with hc | hc
  · rw [step_cons h (i := decodeMarker b) (by rw [hc]; rfl), exec_decodeMarker]
  · have hd : decode r.code = .ok (.rxByte b) := by rw [hc]; simp [decode, decodeWord]
    rw [step_cons h hd, exec_rxByte]

/-- A dispatch whose consumer issues nothing. -/
theorem delivered_quiet {s : State} (bytes : List Byte) (h : s.port.consumer = []) :
    delivered s bytes = (s.emit (.deliver s.cb s.kind bytes s.exp)).toDM := by
  simp [delivered, State.consumerReturns, State.emit, h]

/-- A run goes on from where its first part ends. -/
theorem runSteps_append (m n : Nat) {s t : State} (h : runSteps m s = .next t) : runSteps (m + n) s = runSteps n t := by
  induction m generalizing s with
  | zero => cases h; simp
  | succ m ih =>
    obtain ⟨u, h1, h2⟩ := runSteps_succ h
    rw [show m + 1 + n = (m + n) + 1 by omega, runSteps_next _ h1, ih h2]

/-- Requests that present two runs of bytes are two runs of requests. -/
theorem presents_append {reqs : List Request} {x y : List Byte} (h : List.Forall₂ presents reqs (x ++ y)) :
    ∃ a b, reqs = a ++ b ∧ List.Forall₂ presents a x ∧ List.Forall₂ presents b y := by
  induction x generalizing reqs with
  | nil => exact ⟨[], reqs, rfl, .nil, h⟩
  | cons c cs ih =>
    cases h with
    | cons h1 h2 =>
      obtain ⟨a, b, rfl, ha, hb⟩ := ih h2
      exact ⟨_ :: a, b, rfl, .cons h1 ha, hb⟩

/-! ### Deliveries -/

@[simp] theorem deliveries_nil : deliveries [] = 0 := rfl

@[simp] theorem deliveries_append (a b : List Output) : deliveries (a ++ b) = deliveries a + deliveries b := by
  simp [deliveries]

theorem deliveries_deliver (target : Option Callback) (kind : Byte) (bytes : List Byte) (count : Count)
    (l : List Output) : deliveries (.event (.deliver target kind bytes count) :: l) = 1 + deliveries l := by
  simp [deliveries, Nat.add_comm]

theorem deliveries_refusals (cs : List Call) :
    deliveries ((cs.filter Call.isRxByte).map fun _ => Output.refused .rxDuringDeliver) = 0 := by simp [deliveries]

end Sys2Proof.Machine
end

