-- ==== Sys2Proof/Tests/Slice0.lean ====
section
/-! SUPPORT. The model's own tests. Expected results come from 95_test_vectors.md (its ids stand in the docstrings), from
the encodings of 30_encoding.md, or by hand from the rule named. Then, for every obligation with hypotheses, a state and
operands that meet all of them together (`test_witness_<Name>`). -/

namespace Sys2Proof.Tests

open Sys2Proof Sys2Proof.Machine

/-! ### Helpers -/

/-- The parameters of 95_test_vectors.md (`EVT_MAX` is 16 where the guard is on). -/
def vectorParams : Params := { aclMax := 27, evtGuardEn := false, evtMax := 16, scoLegacy := false }

/-- The same with the Event guard on (L2-R12). -/
def guardParams : Params := { aclMax := 27, evtGuardEn := true, evtMax := 16, scoLegacy := false }

/-- The same with `SCO_LEGACY` (L2-R15). -/
def legacyParams : Params := { aclMax := 27, evtGuardEn := false, evtMax := 16, scoLegacy := true }

def cbA : Callback := ⟨1⟩
def cfg0 : Cfg := ⟨1, 2, 115200⟩
def h1 : BufHandle := ⟨1⟩
def h3 : BufHandle := ⟨3⟩

/-- The vectors' start state: after a successful INIT from reset. -/
def ready : State := { State.reset with params := vectorParams, init := true, cb := some cbA }

/-- In DetectHeader with the bytes `bs` of the packet so far, the marker first. -/
def inHeader (k : Byte) (bs : List Byte) : State :=
  { ready with st := .dh, kind := k, cnt := BitVec.ofNat 17 bs.length, scr := Memory.writeAll [] 0 bs }

/-- In PacketInProgress with the marker-free bytes `bs` so far. -/
def inPayload (k : Byte) (exp : Count) (bs : List Byte) : State :=
  { ready with st := .pip, kind := k, exp := exp, cnt := BitVec.ofNat 17 bs.length, full := Memory.writeAll [] 0 bs }

/-- The state with a request's operands and answers at the port. -/
def serving (s : State) (r : Request) : State := { s with port := r.port }

/-- The next state of an answer. -/
def after (o : Answer) : Option State :=
  match o with
  | .next s => some s
  | _ => none

/-- The next state of an answer, or the state given. -/
def nextOr (d : State) (o : Answer) : State :=
  match o with
  | .next s => s
  | _ => d

/-- What the detector's registers and the outputs are after an answer. -/
def detector (o : Answer) : Option (DetState × Byte × Count × Count × List Output) :=
  (after o).map fun s => (s.st, s.kind, s.cnt, s.exp, s.trace)

/-- A consumer's SEND and its RX_BYTE (R105). -/
def callOf (r : Request) : Call := { code := r.code, ops := r.port.ops, ans := r.port.ans }

/-! ### Well-formedness (R60): each check refuses an ill-formed term -/

theorem test_wf_refuses_cmd_as_other : (Instr.markerOther 0x01).wellFormed = false := by decide
theorem test_wf_refuses_acl_as_other : (Instr.markerOther 0x02).wellFormed = false := by decide
theorem test_wf_refuses_sync_as_other : (Instr.markerOther 0x03).wellFormed = false := by decide
theorem test_wf_refuses_evt_as_other : (Instr.markerOther 0x04).wellFormed = false := by decide
theorem test_wf_accepts_others : ((Instr.markerOther 0x00).wellFormed && (Instr.markerOther 0x05).wellFormed &&
    (Instr.markerOther 0xFF).wellFormed) = true := by decide

/-! ### Decoding: words written out from R71, R72 (`op` in bits 10 to 8) and wire bytes from R60 -/

theorem test_decode_init : decodeTableWord 16 0b00000000000 = some .init := by decide
theorem test_decode_rxByte : decodeTableWord 16 0b00110101010 = some (.rxByte 0xAA) := by decide
theorem test_decode_send : decodeTableWord 16 0b01000000100 = some (.send 0x04) := by decide
theorem test_decode_txDone : decodeTableWord 16 0b01100000000 = some .txDone := by decide
theorem test_decode_handoff : decodeTableWord 16 0b10000000000 = some .handoff := by decide
theorem test_decode_reservedOp5 : decodeTableWord 16 0b10110000001 = some (.reservedOp5 0x81) := by decide
theorem test_decode_reservedOp6 : decodeTableWord 16 0b11000000000 = some (.reservedOp6 0x00) := by decide
theorem test_decode_reservedOp7 : decodeTableWord 16 0b11111111111 = some (.reservedOp7 0xFF) := by decide
theorem test_decode_markerCmd : decodeTableWord 8 0b00000001 = some .markerCmd := by decide
theorem test_decode_markerAcl : decodeTableWord 8 0b00000010 = some .markerAcl := by decide
theorem test_decode_markerSync : decodeTableWord 8 0b00000011 = some .markerSync := by decide
theorem test_decode_markerEvt : decodeTableWord 8 0b00000100 = some .markerEvt := by decide
theorem test_decode_markerOther : decodeTableWord 8 0b10000001 = some (.markerOther 0x81) := by decide

/-- R72: INIT, TX_DONE and HANDOFF with non-zero data are rejected by name. -/
theorem test_decode_rejects_nonzero_data :
    (decodeWord 0x001).toOption = none ∧ (decodeWord 0x380).toOption = none ∧ (decodeWord 0x4FF).toOption = none := by
  decide

/-- The rows of opcode_table.json but for the catch-all MARKER_OTHER. -/
def exactRows : List TableRow :=
  [tableRow .init, tableRow (.rxByte 0), tableRow (.send 0), tableRow .txDone, tableRow .handoff,
    tableRow (.reservedOp5 0), tableRow (.reservedOp6 0), tableRow (.reservedOp7 0), tableRow .markerCmd,
    tableRow .markerAcl, tableRow .markerSync, tableRow .markerEvt]

/-- No two of these rows share a word. -/
theorem test_rows_disjoint :
    exactRows.Pairwise (fun r q => r.bits ≠ q.bits ∨ r.pattern &&& q.mask &&& r.mask ≠ q.pattern &&& r.mask &&& q.mask) := by
  decide

/-! ### Operands and the Packet Catalog -/

/-- L1-B: the field 0x1234 gives handle 0x234, PB 0b01, BC 0b00. -/
theorem test_acl_fields : le16 0x34 0x12 = 0x1234 ∧ aclHandle 0x1234 = 0x234 ∧ aclPacketBoundary 0x1234 = 1 ∧
    aclBroadcast 0x1234 = 0 := by decide

/-- Opcode 0x0C03 is OGF 0x03, OCF 0x003 (R62). -/
theorem test_opcode_fields : opcodeOgf 0x0C03 = 0x03 ∧ opcodeOcf 0x0C03 = 0x003 := by decide

/-- L2 catalog: declared lengths, little-endian for ACL-Data. -/
theorem test_payload_lengths : payloadLen .command [0x03, 0x0C, 0x00] = some 0 ∧
    payloadLen .acl [0x01, 0x00, 0x1B, 0x00] = some 27 ∧ payloadLen .acl [0x01, 0x00, 0x00, 0x01] = some 256 ∧
    payloadLen .event [0x3E, 0xFF] = some 255 := by decide

/-- L2 catalog: guards, the maximum itself passing. -/
theorem test_guards : lengthOk vectorParams .acl 27 = true ∧ lengthOk vectorParams .acl 28 = false ∧
    lengthOk vectorParams .event 255 = true ∧ lengthOk guardParams .event 16 = true ∧
    lengthOk guardParams .event 17 = false ∧ lengthOk vectorParams .command 255 = true := by decide

/-- L2 catalog: expected lengths, and the parameters' `FULL_SIZE`. -/
theorem test_expected_lengths : expLen .command 255 = 258 ∧ expLen .event 255 = 257 ∧ expLen .acl 0 = 4 ∧
    expLen .acl 27 = 31 ∧ fullSize vectorParams = 258 := by decide

/-- Every memory operation keeps the canonical form, out of order too (20_memory.md R36). -/
theorem test_memory_canonical : Memory.write (Memory.write (Memory.write [] 3 0xAA) 1 0xBB) 3 0xCC
    = [(1, 0xBB), (3, 0xCC)] := by decide

/-! ### One step each -/

/-- L2-I1. -/
theorem test_init_ok :
    (after (exec .init (serving State.reset (asmInit cfg0 (some cbA) .ok)))).map
        (fun s => (s.init, s.cb, s.st, s.trace))
      = some (true, some cbA, .dm, [.event (.acquire cfg0), .result .ok]) := by decide

/-- L2-I5. -/
theorem test_init_refused :
    (after (exec .init (serving State.reset (asmInit cfg0 none .ok)))).map (fun s => (s.init, s.refused, s.trace))
      = some (false, true, [.refused .initWithoutCallback]) := by decide

/-- L1-B step 7: the packet is delivered. -/
theorem test_rxByte_delivers :
    detector (exec (.rxByte 0x22) (inPayload 0x02 6 [0x34, 0x12, 0x02, 0x00, 0x11]))
      = some (.dm, 0x00, 0, 0, [.event (.deliver (some cbA) 0x02 [0x34, 0x12, 0x02, 0x00, 0x11, 0x22] 6)]) := by decide

/-- L1-C: the fifth byte aborts. -/
theorem test_rxByte_aborts :
    detector (exec (.rxByte 0xFF) (inHeader 0x02 [0x02, 0xFF, 0xFF, 0xFF])) = some (.dm, 0x00, 0, 0, []) := by decide

/-- L2-R3, first byte. -/
theorem test_markerCmd_accepted :
    detector (exec .markerCmd ready) = some (.dh, 0x01, 1, 0, []) := by decide

/-- P1: 0x01 as the first payload byte of an Event is data. -/
theorem test_markerCmd_data :
    detector (exec .markerCmd (inPayload 0x04 6 [0x0E, 0x04])) = some (.pip, 0x04, 3, 6, []) := by decide

/-- L1-B step 1. -/
theorem test_markerAcl_accepted :
    (after (exec .markerAcl ready)).map (fun s => (s.st, s.kind, s.cnt, s.scr)) = some (.dh, 0x02, 1, [(0, 0x02)]) := by
  decide

/-- L1-B step 4: 0x02 as a header byte is data. -/
theorem test_markerAcl_data :
    (after (exec .markerAcl (inHeader 0x02 [0x02, 0x34, 0x12]))).map (fun s => (s.st, s.cnt, s.scr.find 3))
      = some (.dh, 4, some 0x02) := by decide

/-- L2-R14: discarded. -/
theorem test_markerSync_discarded : detector (exec .markerSync ready) = some (.dm, 0x00, 0, 0, []) := by decide

/-- L2-R15: the legacy dead end. -/
theorem test_markerSync_legacy :
    detector (exec .markerSync { ready with params := legacyParams }) = some (.dh, 0x03, 1, 0, []) := by decide

/-- L2-R2, first byte. -/
theorem test_markerEvt_accepted : detector (exec .markerEvt ready) = some (.dh, 0x04, 1, 0, []) := by decide

/-- P5, byte 5: the next packet's marker completes the stalled one. -/
theorem test_markerEvt_completes :
    detector (exec .markerEvt (inPayload 0x04 4 [0x0E, 0x02, 0x01]))
      = some (.dm, 0x00, 0, 0, [.event (.deliver (some cbA) 0x04 [0x0E, 0x02, 0x01, 0x04] 4)]) := by decide

/-- L1-B step 5. -/
theorem test_markerOther_completes_header :
    detector (exec (.markerOther 0x00) (inHeader 0x02 [0x02, 0x34, 0x12, 0x02])) = some (.pip, 0x02, 4, 6, []) ∧
      (after (exec (.markerOther 0x00) (inHeader 0x02 [0x02, 0x34, 0x12, 0x02]))).map (fun s => s.full)
        = some [(0, 0x34), (1, 0x12), (2, 0x02), (3, 0x00)] := by decide

/-- L2-R2, third byte: a header-only packet. -/
theorem test_markerOther_header_only :
    detector (exec (.markerOther 0x00) (inHeader 0x04 [0x04, 0x0E]))
      = some (.dm, 0x00, 0, 0, [.event (.deliver (some cbA) 0x04 [0x0E, 0x00] 2)]) := by decide

/-- L2-S1, L1-D. -/
theorem test_send_out_of_memory :
    (after (exec (.send 0x04) (serving ready (asmSend 0x04 [0x01, 0x02] none .ok)))).map (fun s => (s.out, s.trace))
      = some ([], [.event (.alloc 3), .result .outOfMemory]) := by decide

/-- L2-S2. -/
theorem test_send_ok :
    (after (exec (.send 0x01) (serving ready (asmSend 0x01 [0x03, 0x0C, 0x00] (some h1) .ok)))).map
        (fun s => (s.out, findBuf h1 s.bufs, s.trace))
      = some ([h1], some [(0, 0x01), (1, 0x03), (2, 0x0C), (3, 0x00)],
          [.event (.alloc 4), .event (.write h1 4 h1), .result .ok]) := by decide

/-- L2-S7. -/
theorem test_txDone_frees :
    (after (exec .txDone (serving { ready with out := [h1, h3], bufs := [(h1, []), (h3, [])] } (asmTxDone h3 .fail)))).map
        (fun s => (s.out, findBuf h3 s.bufs, s.trace))
      = some ([h1], none, [.event (.free h3)]) := by decide

/-- L2-S9. -/
theorem test_txDone_refused :
    (after (exec .txDone (serving ready (asmTxDone h1 .ok)))).map (fun s => (s.out, s.refused, s.trace))
      = some ([], true, [.refused .unknownCompletion]) := by decide

/-- L2-H1. -/
theorem test_handoff_forwards :
    (after (exec .handoff (serving State.reset (asmHandoff ⟨9⟩ [0x04, 0x0E, 0x00] ⟨7⟩)))).map (fun s => s.trace)
      = some [.event (.receive 0x04 [0x0E, 0x00] 2), .event (.free ⟨9⟩), .result (.upper ⟨7⟩)] := by decide

/-- L2-H3. -/
theorem test_handoff_invalid :
    (after (exec .handoff (serving ready (asmHandoff ⟨9⟩ [0x03, 0x00, 0x00] ⟨7⟩)))).map (fun s => s.trace)
      = some [.result .transportError] := by decide

/-- R72. -/
theorem test_reservedOp5 : (after (exec (.reservedOp5 0x01) ready)).map (fun s => (s.refused, s.trace))
    = some (true, [.refused (.reservedOp 5)]) := by decide
theorem test_reservedOp6 : (after (exec (.reservedOp6 0x00) ready)).map (fun s => (s.refused, s.trace))
    = some (true, [.refused (.reservedOp 6)]) := by decide
theorem test_reservedOp7 : (after (exec (.reservedOp7 0xFF) ready)).map (fun s => (s.refused, s.trace))
    = some (true, [.refused (.reservedOp 7)]) := by decide

/-! ### Witnesses: the hypotheses of each obligation can be met -/

theorem test_witness_DecodeAfterEncode : (Instr.markerOther 0x05).wellFormed = true := by decide

theorem test_witness_EncodeAfterDecode : ∃ c i, decode c = .ok i := ⟨.wire 0x05, .markerOther 0x05, rfl⟩

theorem test_witness_StepRunsDecodedRequest :
    (∃ (s : State) (r : Request) (rest : List Request) (i : Instr), s.pending = r :: rest ∧ decode r.code = .ok i) ∧
      ∃ s : State, s.pending = [] :=
  ⟨⟨{ ready with pending := [asmRx 0x04] }, asmRx 0x04, [], .rxByte 0x04, rfl, rfl⟩, ⟨ready, rfl⟩⟩

theorem test_witness_FetchedWordRunsFirst : ∃ nbits w i, decodeTableWord nbits w = some i := ⟨16, 0x104, .rxByte 0x04, rfl⟩

/-- Each op code of the statement, with its data. -/
theorem test_witness_ReservedAndNonzeroWordsRefused :
    ∀ w : ReqWord, w ∈ [0x500#11, 0x6FF#11, 0x700#11, 0x001#11, 0x3FF#11, 0x401#11] →
      (∃ (s : State) (r : Request) (rest : List Request), s.pending = r :: rest ∧ r.code = .word w) ∧
        (opOf w = 0b101 ∨ opOf w = 0b110 ∨ opOf w = 0b111 ∨
          ((opOf w = 0b000 ∨ opOf w = 0b011 ∨ opOf w = 0b100) ∧ dataOf w ≠ 0x00)) := fun w hw =>
  ⟨⟨{ ready with pending := [{ code := .word w, port := Port.nothing }] }, _, [], rfl, rfl⟩, by
    revert w; decide⟩

theorem test_witness_InitBindsCallback :
    ∃ s : State, s.port.ops.cb = some cbA ∧ s.init = false ∧ s.port.ans.acquire = .ok :=
  ⟨serving State.reset (asmInit cfg0 (some cbA) .ok), rfl, rfl, rfl⟩

theorem test_witness_InitAgainChangesNothing : ∃ s : State, s.port.ops.cb = some cbA ∧ s.init = true :=
  ⟨serving ready (asmInit cfg0 (some cbA) .ok), rfl, rfl⟩

theorem test_witness_InitAcquireFailureRetainsNothing :
    (∃ s : State, s.port.ops.cb = some cbA ∧ s.init = false ∧ s.port.ans.acquire = .fail) ∧
      ∃ p : Port, p.ops.cb = some cbA ∧ p.ans.acquire = .ok :=
  ⟨⟨serving State.reset (asmInit cfg0 (some cbA) .fail), rfl, rfl, rfl⟩, ⟨(asmInit cfg0 (some cbA) .ok).port, rfl, rfl⟩⟩

theorem test_witness_InitWithoutCallbackRefused : ∃ s : State, s.port.ops.cb = none := ⟨State.reset, rfl⟩

theorem test_witness_LifecycleIsOneWay : ∃ s t : State, step s = .next t ∧ s.init = true :=
  ⟨{ ready with pending := [asmInit cfg0 (some ⟨2⟩) .ok] }, _, rfl, rfl⟩

theorem test_witness_OnlyInitInitializes : ∃ s t : State, step s = .next t ∧ s.init = false ∧ t.init = true :=
  ⟨{ State.reset with pending := [asmInit cfg0 (some cbA) .ok] }, _, rfl, rfl, rfl⟩

theorem test_witness_ByteBeforeInitIsLost : ∃ s : State, presentedByte .markerEvt = some 0x04 ∧ s.init = false :=
  ⟨State.reset, rfl, rfl⟩

/-- Each accepted marker, 0x03 under `SCO_LEGACY` among them. -/
theorem test_witness_MarkerStartsHeader :
    ∀ b : Byte, b ∈ [0x01#8, 0x02#8, 0x04#8, 0x03#8] →
      ∃ s : State, presentedByte (.rxByte b) = some b ∧ s.init = true ∧ s.st = .dm ∧
        (b = 0x01 ∨ b = 0x02 ∨ b = 0x04 ∨ (b = 0x03 ∧ s.params.scoLegacy = true)) := fun b hb =>
  ⟨{ ready with params := legacyParams }, rfl, rfl, rfl, by revert b; decide⟩

/-- 0x03 without `SCO_LEGACY`, and the bytes on both sides of the markers. -/
theorem test_witness_NonMarkerDiscarded :
    ∀ b : Byte, b ∈ [0x00#8, 0x03#8, 0x05#8, 0xFF#8] →
      ∃ s : State, presentedByte (.rxByte b) = some b ∧ s.init = true ∧ s.st = .dm ∧ b ≠ 0x01 ∧ b ≠ 0x02 ∧ b ≠ 0x04 ∧
        (b = 0x03 → s.params.scoLegacy = false) := fun b hb =>
  ⟨ready, rfl, rfl, rfl, by revert b; decide⟩

/-- The legacy dead end (L2-R15), both clauses. -/
theorem test_witness_LegacyDeadEnd :
    (∃ s : State, presentedByte .markerEvt = some 0x04 ∧ s.init = true ∧ s.st = .dh ∧ s.kind = 0x03) ∧
      ∃ s t : State, s.init = true ∧ s.st = .dh ∧ s.kind = 0x03 ∧ runSteps 2 s = .next t :=
  ⟨⟨{ inHeader 0x03 [0x03] with params := legacyParams }, rfl, rfl, rfl, rfl⟩,
    ⟨{ inHeader 0x03 [0x03] with params := legacyParams, pending := asmRxs [0x04, 0x0E] }, _, rfl, rfl, rfl, rfl⟩⟩

/-- First clause (L2-R21). -/
theorem test_witness_HeaderByte_stored :
    ∃ s : State, presentedByte (.rxByte 0x0E) = some 0x0E ∧ s.init = true ∧ s.st = .dh ∧ kindOf s.kind = some .event ∧
      s.cnt.toNat < headerSize .event :=
  ⟨inHeader 0x04 [0x04], by decide⟩

/-- A length one above the maximum (L2-R6). -/
theorem test_witness_HeaderByte_aborted :
    ∃ s : State, presentedByte (.rxByte 0x00) = some 0x00 ∧ s.init = true ∧ s.st = .dh ∧ kindOf s.kind = some .acl ∧
      s.cnt.toNat = headerSize .acl ∧
      memRead (.scr s.resets) 5 (s.scr.write s.cnt.toNat 0x00) 1 (headerSize .acl) = some [0x01, 0x00, 0x1C, 0x00] ∧
      payloadLen .acl [0x01, 0x00, 0x1C, 0x00] = some 28 ∧ lengthOk s.params .acl 28 = false :=
  ⟨inHeader 0x02 [0x02, 0x01, 0x00, 0x1C], by decide⟩

/-- The maximum itself (L2-R5). -/
theorem test_witness_HeaderByte_accepted :
    ∃ s : State, presentedByte (.markerOther 0x00) = some 0x00 ∧ s.init = true ∧ s.st = .dh ∧
      kindOf s.kind = some .acl ∧ s.cnt.toNat = headerSize .acl ∧
      memRead (.scr s.resets) 5 (s.scr.write s.cnt.toNat 0x00) 1 (headerSize .acl) = some [0x01, 0x00, 0x1B, 0x00] ∧
      payloadLen .acl [0x01, 0x00, 0x1B, 0x00] = some 27 ∧ lengthOk s.params .acl 27 = true ∧ (27 : BitVec 16) ≠ 0 :=
  ⟨inHeader 0x02 [0x02, 0x01, 0x00, 0x1B], by decide⟩

/-- A header-only packet (L2-R3). -/
theorem test_witness_HeaderByte_header_only :
    ∃ s : State, presentedByte (.rxByte 0x00) = some 0x00 ∧ s.init = true ∧ s.st = .dh ∧
      kindOf s.kind = some .command ∧ s.cnt.toNat = headerSize .command ∧
      memRead (.scr s.resets) 5 (s.scr.write s.cnt.toNat 0x00) 1 (headerSize .command) = some [0x03, 0x0C, 0x00] ∧
      payloadLen .command [0x03, 0x0C, 0x00] = some 0 ∧ lengthOk s.params .command 0 = true ∧ s.port.consumer = [] :=
  ⟨inHeader 0x01 [0x01, 0x03, 0x0C], by decide⟩

/-- A byte that is not the last, and the last one at the largest `exp` a Command can have, 258, which is `FULL_SIZE`
(L2-R8). -/
theorem test_witness_PayloadByte :
    (∃ s : State, presentedByte (.rxByte 0x11) = some 0x11 ∧ s.init = true ∧ s.st = .pip ∧
        s.exp.toNat ≤ fullSize s.params ∧ s.cnt.toNat + 1 < s.exp.toNat) ∧
      ∃ s : State, presentedByte (.rxByte 0x00) = some 0x00 ∧ s.init = true ∧ s.st = .pip ∧
        s.exp.toNat ≤ fullSize s.params ∧ s.cnt.toNat + 1 = s.exp.toNat ∧ s.port.consumer = [] :=
  ⟨⟨inPayload 0x02 6 [0x34, 0x12, 0x02, 0x00], by decide⟩,
    ⟨{ inPayload 0x01 258 [0x00, 0x00, 0xFF] with cnt := 257 }, by decide⟩⟩

theorem test_witness_UnusedDetStateFaults :
    ∃ s : State, presentedByte .markerEvt = some 0x04 ∧ s.init = true ∧ s.st = .unused :=
  ⟨{ ready with st := .unused }, rfl, rfl, rfl⟩

/-- A byte that ends an Event whose consumer issues an RX_BYTE and a SEND (R105). -/
def nested : State :=
  { inHeader 0x04 [0x04, 0x0E] with
    port := { Port.nothing with consumer := [callOf (asmRx 0x04), callOf (asmSend 0x01 [0x00] (some h1) .ok)] } }

/-- A delivery whose consumer issues an RX_BYTE and a SEND, the first with a request pending. -/
theorem test_witness_DeliverConsumerRequests :
    ∃ s t : State, presentedByte (.markerOther 0x00) = some 0x00 ∧ exec (.markerOther 0x00) s = .next t ∧
      deliveries t.trace ≠ deliveries s.trace ∧ (∃ c ∈ s.port.consumer, c.isRxByte = true) ∧ (∃ r, r ∈ s.pending) ∧
      ∃ c ∈ s.port.consumer, (∃ kind, decode c.code = .ok (.send kind)) ∨ decode c.code = .ok .handoff :=
  ⟨{ nested with pending := [asmTxDone h1 .ok] },
    nextOr nested (exec (.markerOther 0x00) { nested with pending := [asmTxDone h1 .ok] }), rfl, rfl, by decide, by decide,
    ⟨_, List.mem_singleton.2 rfl⟩, ⟨callOf (asmSend 0x01 [0x00] (some h1) .ok), by decide, .inl ⟨0x01, rfl⟩⟩⟩

/-- The same delivery, and one whose consumer issues nothing. -/
theorem test_witness_DeliverConsumerOrder :
    (∃ t : State, presentedByte (.markerOther 0x00) = some 0x00 ∧ exec (.markerOther 0x00) nested = .next t ∧
        deliveries t.trace ≠ deliveries nested.trace ∧ ∃ c ∈ nested.port.consumer, c.isRxByte = true) ∧
      ∃ s t : State, presentedByte (.markerOther 0x00) = some 0x00 ∧ exec (.markerOther 0x00) s = .next t ∧
        deliveries t.trace ≠ deliveries s.trace ∧ s.port.consumer = [] :=
  ⟨⟨nextOr nested (exec (.markerOther 0x00) nested), rfl, rfl, by decide, by decide⟩,
    ⟨inHeader 0x04 [0x04, 0x0E], nextOr ready (exec (.markerOther 0x00) (inHeader 0x04 [0x04, 0x0E])), rfl, rfl,
      by decide, rfl⟩⟩

theorem test_witness_ReceiveFrame :
    ∃ s t : State, presentedByte (.rxByte 0x0E) = some 0x0E ∧ exec (.rxByte 0x0E) s = .next t ∧
      deliveries t.trace = deliveries s.trace :=
  ⟨inHeader 0x04 [0x04], nextOr ready (exec (.rxByte 0x0E) (inHeader 0x04 [0x04])), rfl, rfl, by decide⟩

theorem test_witness_SendBeforeInitRefused : State.reset.init = false := rfl

theorem test_witness_SendOutOfMemory : ∃ s : State, s.init = true ∧ s.port.ans.alloc = none :=
  ⟨serving ready (asmSend 0x04 [0x01, 0x02] none .ok), rfl, rfl⟩

/-- A payload of no byte, and one of three bytes (L2-S4, L2-S2). -/
theorem test_witness_SendSubmitsFrame :
    ∀ p : List Byte, p ∈ [[], [0x03#8, 0x0C#8, 0x00#8]] →
      ∃ s : State, s.init = true ∧ s.port.ans.alloc = some h1 ∧ isLive h1 s = false ∧
        s.port.ops.payload.length = s.port.ops.len.toNat ∧ s.port.ans.write = .ok := fun p hp =>
  ⟨serving ready (asmSend 0x01 p (some h1) .ok), rfl, rfl, rfl, by revert p; decide, rfl⟩

theorem test_witness_SendSubmissionFailureReleases :
    ∃ s : State, s.init = true ∧ s.port.ans.alloc = some h1 ∧ isLive h1 s = false ∧
      s.port.ops.payload.length = s.port.ops.len.toNat ∧ s.port.ans.write = .fail :=
  ⟨serving ready (asmSend 0x02 [] (some h1) .fail), by decide⟩

theorem test_witness_SendStaleHandleRefused :
    ∃ s : State, s.init = true ∧ s.port.ans.alloc = some h1 ∧ isLive h1 s = true :=
  ⟨serving { ready with out := [h1] } (asmSend 0x01 [] (some h1) .ok), by decide⟩

theorem test_witness_CompletionReleasesBuffer : ∃ s : State, s.port.ops.h ∈ s.out :=
  ⟨serving { ready with out := [h1, h3] } (asmTxDone h3 .fail), by decide⟩

theorem test_witness_UnknownCompletionRefused : ∃ s : State, s.port.ops.h ∉ s.out :=
  ⟨serving ready (asmTxDone h1 .ok), by decide⟩

/-- A TX_DONE step for an outstanding handle, and a SEND step that makes one outstanding. -/
theorem test_witness_OutstandingUntilItsCompletion :
    (∃ s t : State, step s = .next t ∧ h1 ∈ s.out) ∧ ∃ s t : State, step s = .next t ∧ h1 ∉ s.out ∧ h1 ∈ t.out :=
  ⟨⟨{ ready with out := [h1], pending := [asmTxDone h1 .ok] }, _, rfl, by decide⟩,
    ⟨{ ready with pending := [asmSend 0x01 [0x00] (some h1) .ok] },
      nextOr ready (step { ready with pending := [asmSend 0x01 [0x00] (some h1) .ok] }), rfl, by decide, by decide⟩⟩

/-- `n = 0` (L2-H5), and an invalid marker (L2-H3). -/
theorem test_witness_HandoffInvalidMarker :
    (∃ s : State, s.port.ops.n = 0) ∧
      ∃ (s : State) (m : Byte) (rest : List Byte), s.port.ops.hbBytes = m :: rest ∧ m ≠ 0x01 ∧ m ≠ 0x02 ∧ m ≠ 0x04 :=
  ⟨⟨serving ready (asmHandoff ⟨9⟩ [] ⟨0⟩), rfl⟩,
    ⟨serving ready (asmHandoff ⟨9⟩ [0x03, 0x00, 0x00] ⟨0⟩), 0x03, [0x00, 0x00], by decide⟩⟩

/-- A hand-off buffer of the marker 0x02 and `n` bytes more. -/
def longBuffer (n : Nat) : State :=
  { ready with port := { Port.nothing with
      ops := { Port.nothing.ops with hbBytes := 0x02 :: List.replicate n 0x00, n := BitVec.ofNat 17 (1 + n) } } }

/-- It is what the statements about a valid packet ask for, at every length `n` can count. -/
theorem longBuffer_ops (n : Nat) (h : n < 131071) :
    (longBuffer n).port.ops.hbBytes = 0x02 :: List.replicate n 0x00 ∧
      (longBuffer n).port.ops.n.toNat = 1 + (List.replicate n (0x00 : Byte)).length ∧
      (longBuffer n).port.ops.n.toNat = 1 + n := by
  have hn : (longBuffer n).port.ops.n.toNat = 1 + n := by
    show (BitVec.ofNat 17 (1 + n)).toNat = 1 + n
    rw [BitVec.toNat_ofNat]
    omega
  exact ⟨rfl, by rw [hn, List.length_replicate], hn⟩

/-- A packet with a body, a lone marker (L2-H1, L2-H2), and the largest `n` of the statement, 65536. -/
theorem test_witness_HandoffForwardsAndFrees :
    (∃ s : State, s.port.ops.hbBytes = 0x04 :: [0x0E, 0x00] ∧ s.port.ops.n.toNat = 1 + 2 ∧
        s.port.ops.n.toNat ≤ 65536) ∧
      (∃ s : State, s.port.ops.hbBytes = 0x02 :: [] ∧ s.port.ops.n.toNat = 1 + 0 ∧ s.port.ops.n.toNat ≤ 65536) ∧
      ∃ (s : State) (body : List Byte), s.port.ops.hbBytes = 0x02 :: body ∧ s.port.ops.n.toNat = 1 + body.length ∧
        s.port.ops.n.toNat = 1 + 65535 :=
  ⟨⟨serving ready (asmHandoff ⟨9⟩ [0x04, 0x0E, 0x00] ⟨7⟩), by decide⟩, ⟨serving ready (asmHandoff ⟨9⟩ [0x02] ⟨7⟩), by decide⟩,
    ⟨_, _, longBuffer_ops 65535 (by omega)⟩⟩

/-- The smallest and the largest `n` of the statement, 65537 and 131071. -/
theorem test_witness_HandoffForwardsLongBuffer :
    (∃ (s : State) (body : List Byte), s.port.ops.hbBytes = 0x02 :: body ∧ s.port.ops.n.toNat = 1 + body.length ∧
        s.port.ops.n.toNat = 1 + 65536) ∧
      ∃ (s : State) (body : List Byte), s.port.ops.hbBytes = 0x02 :: body ∧ s.port.ops.n.toNat = 1 + body.length ∧
        s.port.ops.n.toNat = 1 + 131070 :=
  ⟨⟨_, _, longBuffer_ops 65536 (by omega)⟩, ⟨_, _, longBuffer_ops 131070 (by omega)⟩⟩

theorem test_witness_HandoffIsIndependent :
    ∃ s u t : State, s.port.ops = u.port.ops ∧ s.port.ans = u.port.ans ∧ exec .handoff s = .next t :=
  ⟨serving ready (asmHandoff ⟨9⟩ [0x04, 0x0E, 0x00] ⟨7⟩), serving State.reset (asmHandoff ⟨9⟩ [0x04, 0x0E, 0x00] ⟨7⟩), _,
    rfl, rfl, rfl⟩

/-- One step of each agent, and one of a reserved word. -/
theorem test_witness_AgentFootprints :
    (∃ t, exec .markerEvt ready = .next t) ∧ (∃ t, exec (.send 0x04) ready = .next t) ∧
      (∃ t, exec .txDone ready = .next t) ∧ (∃ t, exec .handoff ready = .next t) ∧ (∃ t, exec .init ready = .next t) ∧
      ∃ t, exec (.reservedOp5 0x00) ready = .next t :=
  ⟨⟨_, rfl⟩, ⟨_, rfl⟩, ⟨_, rfl⟩, ⟨_, rfl⟩, ⟨_, rfl⟩, ⟨_, rfl⟩⟩

theorem test_witness_RefusalMarkIsSticky :
    (∃ s t : State, step s = .next t ∧ s.refused = true) ∧
      ∃ (s t : State) (l : List Output), step s = .next t ∧ t.trace = s.trace ++ l ∧
        Output.refused .unknownCompletion ∈ l :=
  ⟨⟨{ ready with refused := true, pending := [asmRx 0x04] }, _, rfl, rfl⟩,
    ⟨{ ready with pending := [asmTxDone h1 .ok] }, _, [.refused .unknownCompletion], rfl, rfl, by simp⟩⟩

/-- A step that delivers a packet. -/
theorem test_witness_AtMostOneDeliveryPerStep :
    ∃ (s t : State) (l : List Output), step s = .next t ∧ t.trace = s.trace ++ l ∧ deliveries l = 1 :=
  ⟨{ inHeader 0x04 [0x04, 0x0E] with pending := [asmRx 0x00] }, _,
    [.event (.deliver (some cbA) 0x04 [0x0E, 0x00] 2)], rfl, rfl, rfl⟩

/-- The transition that writes `exp`, and a byte that counts. -/
theorem test_witness_CountersWrittenByRule :
    (∃ s t : State, step s = .next t ∧ t.exp ≠ s.exp ∧ s.st = .dh) ∧
      ∃ s t : State, step s = .next t ∧ t.cnt ≠ s.cnt ∧ s.st = .pip :=
  ⟨⟨{ inHeader 0x04 [0x04, 0x0E] with pending := [asmRx 0x02] },
      nextOr ready (step { inHeader 0x04 [0x04, 0x0E] with pending := [asmRx 0x02] }), rfl, by decide, rfl⟩,
    ⟨{ inPayload 0x04 4 [0x0E, 0x02] with pending := [asmRx 0x01] },
      nextOr ready (step { inPayload 0x04 4 [0x0E, 0x02] with pending := [asmRx 0x01] }), rfl, by decide, rfl⟩⟩

theorem test_witness_ReceiveIgnoresSendState :
    ∃ s u t : State, presentedByte .markerEvt = some 0x04 ∧ sameReceiveView s u ∧ exec .markerEvt s = .next t ∧
      s.out ≠ u.out :=
  ⟨ready, { ready with out := [h1] }, _, rfl, ⟨rfl, rfl, rfl, rfl, rfl, rfl, rfl, rfl, rfl, rfl, rfl⟩, rfl, by decide⟩

/-- A marker, beside a step of each of the three agents. -/
theorem test_witness_ReceiveCommutesWithSend :
    ∀ r : Instr × Request, r ∈ [(.send 0x01, asmSend 0x01 [0x00] (some h1) .ok), (.txDone, asmTxDone h1 .ok),
        (.handoff, asmHandoff ⟨9⟩ [0x04] ⟨7⟩)] →
      ∃ t u : State, agentOf .markerEvt = some .receive ∧
        (agentOf r.1 = some .sender ∨ agentOf r.1 = some .completion ∨ agentOf r.1 = some .handoff) ∧
        exec .markerEvt { ready with port := Port.nothing } = .next t ∧ exec r.1 { t with port := r.2.port } = .next u := by
  intro r hr
  simp only [List.mem_cons, List.not_mem_nil, or_false] at hr
  rcases hr with rfl | rfl | rfl
  · exact ⟨_, _, rfl, .inl rfl, rfl, rfl⟩
  · exact ⟨_, _, rfl, .inr (.inl rfl), rfl, rfl⟩
  · exact ⟨_, _, rfl, .inr (.inr rfl), rfl, rfl⟩

theorem test_witness_HeaderShapesAndLengths :
    kindOf 0x01 = some .command ∧ kindOf 0x02 = some .acl ∧ kindOf 0x04 = some .event := by decide

/-- Each kind at the largest length its guard passes. -/
theorem test_witness_ExpectedLengthIsExact :
    (payloadLen .acl [0x01, 0x00, 0xFE, 0xFF] = some 65534 ∧
        lengthOk { vectorParams with aclMax := 65534 } .acl 65534 = true) ∧
      (payloadLen .command [0x00, 0x00, 0xFF] = some 255 ∧ lengthOk vectorParams .command 255 = true) ∧
      payloadLen .event [0x3E, 0x10] = some 16 ∧ guardParams.evtGuardEn = true ∧ lengthOk guardParams .event 16 = true := by
  decide

/-- In the middle of a payload, two frames outstanding, a consumer's operands among those to come. -/
def busy : State :=
  { inPayload 0x02 6 [0x34, 0x12, 0x02, 0x00] with
    out := [h1]
    bufs := [(h1, [(0, 0x04)])]
    pending := [asmRx 0x11, { asmRx 0x22 with port := nested.port }, asmTxDone h1 .ok] }

theorem busy_inv : MachineInv busy where
  detector := ⟨.acl, by decide⟩
  lifecycle := by unfold lifecycleInv; decide
  written := by
    refine ⟨fun h => absurd h (by decide), fun _ i hi => ?_⟩
    have h4 : i < 4 := hi
    revert i
    decide
  declared := fun _ => ⟨.acl, [0x34, 0x12, 0x02, 0x00], 2, by decide⟩
  regions := by unfold regionsInv; decide
  buffers := by unfold buffersInv; decide

theorem busy_typed : inputsTyped busy := by
  intro r hr
  simp only [busy, List.mem_cons, List.not_mem_nil, or_false] at hr
  rcases hr with rfl | rfl | rfl <;> (unfold Port.typed SideOperands.typed; decide)

theorem test_witness_StepKeepsInv : ∃ s t : State, MachineInv s ∧ step s = .next t := ⟨busy, _, busy_inv, rfl⟩

theorem test_witness_ReinstantiationForgets : ∃ s : State, MachineInv s := ⟨busy, busy_inv⟩

/-- R148: what was outstanding before a re-instantiation is tracked no more, and its handle may be answered afresh. -/
theorem test_reset_untracks : isLive h1 busy = true ∧ isLive h1 (resetEngine busy) = false ∧
    (resetEngine busy).resets = 1 := by decide

theorem test_witness_StepNeverStops : ∃ s : State, MachineInv s ∧ inputsTyped s := ⟨busy, busy_inv, busy_typed⟩

/-- A request for each byte. -/
theorem presents_asmRxs (bs : List Byte) : List.Forall₂ presents (asmRxs bs) bs := by
  induction bs with
  | nil => exact .nil
  | cons b bs ih => exact .cons ⟨.inr rfl, rfl⟩ ih

/-- L1-B. -/
theorem test_witness_WholePacketIsDelivered :
    ∃ (s : State) (reqs rest : List Request), s.init = true ∧ s.st = .dm ∧
      ([0x34, 0x12, 0x02, 0x00] : List Byte).length = headerSize .acl ∧
      payloadLen .acl [0x34, 0x12, 0x02, 0x00] = some 2 ∧ lengthOk s.params .acl 2 = true ∧
      ([0x11, 0x22] : List Byte).length = (2 : BitVec 16).toNat ∧
      List.Forall₂ presents reqs (PacketKind.acl.marker :: [0x34, 0x12, 0x02, 0x00] ++ [0x11, 0x22]) ∧
      s.pending = reqs ++ rest :=
  ⟨{ ready with pending := asmRxs [0x02, 0x34, 0x12, 0x02, 0x00, 0x11, 0x22] ++ [asmRx 0x04] }, _, [asmRx 0x04], rfl, rfl,
    rfl, by decide, by decide, by decide, presents_asmRxs _, rfl⟩

/-- L2-R6. -/
theorem test_witness_OversizedPacketIsDropped :
    ∃ (s : State) (reqs rest : List Request), s.init = true ∧ s.st = .dm ∧
      ([0x01, 0x00, 0x1C, 0x00] : List Byte).length = headerSize .acl ∧
      payloadLen .acl [0x01, 0x00, 0x1C, 0x00] = some 28 ∧ lengthOk s.params .acl 28 = false ∧
      List.Forall₂ presents reqs (PacketKind.acl.marker :: [0x01, 0x00, 0x1C, 0x00]) ∧ s.pending = reqs ++ rest :=
  ⟨{ ready with pending := asmRxs [0x02, 0x01, 0x00, 0x1C, 0x00] ++ [asmRx 0x00] }, _, [asmRx 0x00], rfl, rfl, rfl,
    by decide, by decide, presents_asmRxs _, rfl⟩

/-- L2-R1. -/
theorem test_witness_GarbageRunIsDiscarded :
    ∃ (s : State) (reqs rest : List Request), s.init = true ∧ s.st = .dm ∧
      (∀ b ∈ ([0x00, 0x03, 0x05, 0x7F, 0xFF] : List Byte), acceptsMarker s.params b = false) ∧
      List.Forall₂ presents reqs [0x00, 0x03, 0x05, 0x7F, 0xFF] ∧ s.pending = reqs ++ rest :=
  ⟨{ ready with pending := asmRxs [0x00, 0x03, 0x05, 0x7F, 0xFF] ++ [asmRx 0x04] }, _, [asmRx 0x04], rfl, rfl, by decide,
    presents_asmRxs _, rfl⟩

/-- P2: the third SEND, and the bytes of its frame fed back. -/
theorem test_witness_SendReceiveRoundTrip :
    (∃ s : State, s.init = true ∧ s.port.ans.alloc = some h3 ∧ isLive h3 s = false ∧ s.port.ans.write = .ok ∧
        s.port.ops.payload = [0x01, 0x20, 0x01, 0x00] ++ [0x7F] ∧ s.port.ops.payload.length = s.port.ops.len.toNat ∧
        ([0x01, 0x20, 0x01, 0x00] : List Byte).length = headerSize .acl ∧
        payloadLen .acl [0x01, 0x20, 0x01, 0x00] = some 1 ∧ lengthOk s.params .acl 1 = true ∧
        ([0x7F] : List Byte).length = (1 : BitVec 16).toNat ∧ s.params = vectorParams) ∧
      ∃ (u : State) (reqs rest : List Request), u.init = true ∧ u.st = .dm ∧ u.params = vectorParams ∧
        List.Forall₂ presents reqs [0x02, 0x01, 0x20, 0x01, 0x00, 0x7F] ∧ u.pending = reqs ++ rest :=
  ⟨⟨serving ready (asmSend 0x02 [0x01, 0x20, 0x01, 0x00, 0x7F] (some h3) .ok), by decide⟩,
    ⟨{ ready with pending := asmRxs [0x02, 0x01, 0x20, 0x01, 0x00, 0x7F] ++ [asmRx 0x04] }, _, [asmRx 0x04], rfl, rfl, rfl,
      presents_asmRxs _, rfl⟩⟩

end Sys2Proof.Tests
end

namespace Sys2Proof.Machine

/-! ### The step and its request (00_scope.md R10) -/

/-- Settles O5: the first clause is `step_cons`, since taking a request (`State.take`) moves its operands and answers to
the port and drops it from the pending list; the second is `step_nil`. -/
theorem stepRunsDecodedRequest : Obligations.StepRunsDecodedRequest := by
  constructor
  · intro s r rest i hpending hdecode
    exact step_cons hpending hdecode
  · intro s hidle
    exact step_nil hidle

end Sys2Proof.Machine

namespace Sys2Proof.Machine

/-! ### What the receive operation writes (10_state.md R32, 20_memory.md R45)

Said once over the cases of `ReceiveCase`; the invariant, the frame and the footprint of the receive path cite these. -/

section Receive

variable {b : Byte} {s t : State}

theorem ReceiveCase.frame (h : ReceiveCase b s t) :
    t.params = s.params ∧ t.init = s.init ∧ t.cb = s.cb ∧ sameSendView t s ∧ t.port = s.port ∧ t.resets = s.resets := by
  cases h <;> simp [sameSendView]

theorem ReceiveCase.scr_cases (h : ReceiveCase b s t) :
    t.scr = s.scr ∨ (s.st = .dm ∧ t.scr = s.scr.write 0 b) ∨
      (s.st = .dh ∧ s.cnt.toNat < Config.scratchSize ∧ t.scr = s.scr.write s.cnt.toNat b) := by
  cases h with
  | lost | discarded | absorbed | payload | completed => exact .inl rfl
  | accepted _ hst _ => exact .inr (.inl ⟨hst, rfl⟩)
  | header _ _ hst _ hc _ => exact .inr (.inr ⟨hst, hc, rfl⟩)
  | aborted k _ _ _ hst _ hc | begun k _ _ _ hst _ hc | headerOnly k _ _ _ hst _ hc =>
    have hfits : s.cnt.toNat < Config.scratchSize := by
      have := headerSize_le k
      unfold Config.scratchSize
      omega
    exact .inr (.inr ⟨hst, hfits, rfl⟩)

theorem ReceiveCase.full_cases (h : ReceiveCase b s t) :
    t.full = s.full ∨
      (s.st = .pip ∧ s.cnt.toNat < fullSize s.params ∧ t.full = s.full.write s.cnt.toNat b) ∨
      ∃ k hdr, s.st = .dh ∧ kindOf s.kind = some k ∧ s.cnt.toNat = headerSize k ∧ hdr.length = headerSize k ∧
        t.full = s.full.writeAll 0 hdr := by
  cases h with
  | lost | discarded | accepted | absorbed | header | aborted => exact .inl rfl
  | payload _ hst hc | completed _ _ hst hc => exact .inr (.inl ⟨hst, hc, rfl⟩)
  | begun k hdr _ _ hst hk hc hr | headerOnly k hdr _ _ hst hk hc hr =>
    exact .inr (.inr ⟨k, hdr, hst, hk, hc, memRead_length hr, rfl⟩)

end Receive

/-! ### The parts of the invariant (10_state.md R31), one lemma per detector state or shape -/

section InvariantParts

variable {s t : State}

theorem detectorInv_dm (hst : s.st = .dm) : detectorInv s ↔ s.cnt = 0 ∧ s.kind = 0x00 ∧ s.exp = 0 := by
  simp only [detectorInv, hst]

theorem detectorInv_dh (hst : s.st = .dh) :
    detectorInv s ↔
      (∃ k, kindOf s.kind = some k ∧ 1 ≤ s.cnt.toNat ∧ s.cnt.toNat ≤ headerSize k) ∨
        (s.params.scoLegacy = true ∧ s.kind = 0x03 ∧ s.cnt = 1) := by
  simp only [detectorInv, hst]

theorem detectorInv_pip (hst : s.st = .pip) :
    detectorInv s ↔
      ∃ k, kindOf s.kind = some k ∧ headerSize k ≤ s.cnt.toNat ∧ s.cnt.toNat < s.exp.toNat ∧
        s.exp.toNat ≤ fullSize s.params := by
  simp only [detectorInv, hst]

theorem not_detectorInv_unused (hst : s.st = .unused) : ¬ detectorInv s := by
  simp only [detectorInv, hst, not_false_eq_true]

/-- In DetectHeader with a header shape, at least the marker and at most all but one byte of the header is counted. -/
theorem headerCount_of_detectorInv {k : PacketKind} (hd : detectorInv s) (hst : s.st = .dh) (hk : kindOf s.kind = some k) :
    1 ≤ s.cnt.toNat ∧ s.cnt.toNat ≤ headerSize k := by
  rcases (detectorInv_dh hst).1 hd with ⟨k', hk', hlo, hhi⟩ | ⟨-, hsync, -⟩
  · obtain rfl : k' = k := Option.some.inj (hk'.symm.trans hk)
    exact ⟨hlo, hhi⟩
  · exact absurd hsync (kindOf_ne_sync hk)

/-- What the detector accepts is a marker with a header shape, or the legacy one (40_catalog.md R79). -/
theorem acceptsMarker_cases {p : Params} {b : Byte} (h : acceptsMarker p b = true) :
    (∃ k, kindOf b = some k) ∨ (p.scoLegacy = true ∧ b = 0x03) := by
  simpa [acceptsMarker, isKind, Option.isSome_iff_exists] using h

/-- An accepted header leaves `cnt` where it was: one up for the byte, one down for the marker (41_receive.md R97). -/
theorem headerAccepted_cnt (k : PacketKind) (hdr : List Byte) (len : BitVec 16) (b : Byte) (s : State) :
    (headerAccepted k hdr len (headerStored b s)).cnt = s.cnt :=
  BitVec.add_sub_cancel s.cnt 1

theorem headerStored_cnt {b : Byte} {s : State} (hc : s.cnt.toNat < 5) :
    (headerStored b s).cnt.toNat = s.cnt.toNat + 1 :=
  count_succ hc (by omega)

theorem payloadStored_cnt {b : Byte} {s : State} (hc : s.cnt.toNat < fullSize s.params) :
    (payloadStored b s).cnt.toNat = s.cnt.toNat + 1 :=
  count_succ hc (fullSize_le _)

/-- A region that is in canonical form and lists no index past its size. -/
def Memory.within (size : Nat) (m : Memory) : Prop := m.wf ∧ ∀ c ∈ m, c.1 < size

theorem Memory.within_write {size i : Nat} {m : Memory} (hm : m.within size) (hi : i < size) (b : Byte) :
    (m.write i b).within size := by
  obtain ⟨hwf, hlt⟩ := hm
  refine ⟨Memory.wf_write hwf i b, fun c hc => ?_⟩
  rcases Memory.mem_write hc with rfl | hc
  · exact hi
  · exact hlt c hc

theorem Memory.within_writeAll {size i : Nat} {m : Memory} {v : List Byte} (hm : m.within size)
    (hi : i + v.length ≤ size) : (m.writeAll i v).within size := by
  obtain ⟨hwf, hlt⟩ := hm
  refine ⟨Memory.wf_writeAll hwf i v, fun c hc => ?_⟩
  rcases Memory.mem_writeAll hc with ⟨-, hc⟩ | hc
  · omega
  · exact hlt c hc

theorem regionsInv_iff : regionsInv s ↔ s.scr.within Config.scratchSize ∧ s.full.within (fullSize s.params) :=
  ⟨fun ⟨hsw, hfw, hsb, hfb⟩ => ⟨⟨hsw, hsb⟩, ⟨hfw, hfb⟩⟩, fun ⟨⟨hsw, hsb⟩, ⟨hfw, hfb⟩⟩ => ⟨hsw, hfw, hsb, hfb⟩⟩

/-- Storing the next byte of a region written from its start extends what is written by one. -/
theorem Memory.find_isSome_write {m : Memory} {n : Nat} (h : ∀ i, i < n → (m.find i).isSome = true) (b : Byte) :
    ∀ i, i < n + 1 → ((m.write n b).find i).isSome = true := by
  intro i hi
  rw [Memory.find_write]
  split
  · rfl
  · next hne => exact h i (by omega)

/-- The invariant speaks only of the engine's record and its buffers. -/
theorem MachineInv.of_sameEngine (hI : MachineInv s) (h : sameEngine t s) : MachineInv t := by
  cases s
  cases t
  obtain ⟨rfl, rfl, rfl, rfl, rfl, rfl, rfl, rfl, rfl, rfl, rfl, rfl⟩ := h
  exact ⟨hI.detector, hI.lifecycle, hI.written, hI.declared, hI.regions, hI.buffers⟩

/-- What the header and payload in progress need holds trivially of an idle detector. -/
theorem MachineInv.of_idle (hst : t.st = .dm) (hregs : t.cnt = 0 ∧ t.kind = 0x00 ∧ t.exp = 0) (hl : lifecycleInv t)
    (hr : regionsInv t) (hb : buffersInv t) : MachineInv t where
  detector := (detectorInv_dm hst).2 hregs
  lifecycle := hl
  written := by
    constructor <;> intro h <;> rw [hst] at h <;> cases h
  declared := by
    intro h
    rw [hst] at h
    cases h
  regions := hr
  buffers := hb

end InvariantParts

/-! ### The receive operation keeps the invariant -/

section ReceiveInvariant

variable {b : Byte} {s t : State}

theorem ReceiveCase.keeps_detectorInv (h : ReceiveCase b s t) (hd : detectorInv s) : detectorInv t := by
  cases h with
  | lost | discarded | absorbed => exact hd
  | aborted | headerOnly | completed => exact (detectorInv_dm rfl).2 ⟨rfl, rfl, rfl⟩
  | accepted _ _ ha =>
    refine (detectorInv_dh rfl).2 ?_
    rcases acceptsMarker_cases ha with ⟨k, hk⟩ | ⟨hleg, rfl⟩
    · have := headerSize_pos k
      exact .inl ⟨k, hk, Nat.le_refl 1, show 1 ≤ headerSize k by omega⟩
    · exact .inr ⟨hleg, rfl, rfl⟩
  | header k _ hst hk hc hn =>
    obtain ⟨-, hle⟩ := headerCount_of_detectorInv hd hst hk
    refine (detectorInv_dh (s := headerStored b s) hst).2 (.inl ⟨k, hk, ?_⟩)
    rw [headerStored_cnt hc]
    omega
  | begun k hdr len _ _ hk hc _ hp hg hz =>
    have hlen : len.toNat ≠ 0 := fun e => hz (BitVec.toNat_inj.1 e)
    have hexp := expLen_toNat k len
    refine (detectorInv_pip rfl).2 ⟨k, hk, ?_, ?_, expLen_le_fullSize hp hg⟩ <;> rw [headerAccepted_cnt]
    · omega
    · show s.cnt.toNat < (expLen k len).toNat
      omega
  | payload _ hst hc hn =>
    obtain ⟨k, hk, hlo, hlt, hfit⟩ := (detectorInv_pip hst).1 hd
    refine (detectorInv_pip (s := payloadStored b s) hst).2 ⟨k, hk, ?_⟩
    rw [payloadStored_cnt hc]
    exact ⟨by omega, show s.cnt.toNat + 1 < s.exp.toNat by omega, hfit⟩

theorem ReceiveCase.eq_of_not_init (h : ReceiveCase b s t) (hi : s.init = false) : t = s := by
  cases h with
  | lost => rfl
  | discarded h | accepted h | absorbed h | header _ h | aborted _ _ _ h | begun _ _ _ h | headerOnly _ _ _ h
  | payload h | completed _ h => exact Bool.noConfusion (h.symm.trans hi)

theorem ReceiveCase.keeps_lifecycleInv (h : ReceiveCase b s t) (hl : lifecycleInv s) : lifecycleInv t := by
  obtain ⟨-, hinit, hcb, -⟩ := h.frame
  cases hi : s.init with
  | false => exact h.eq_of_not_init hi ▸ hl
  | true =>
    refine ⟨fun hf => ?_, fun _ => hcb ▸ hl.2 hi⟩
    rw [hinit, hi] at hf
    cases hf

theorem ReceiveCase.keeps_writtenInv (h : ReceiveCase b s t) (hd : detectorInv s) (hw : writtenInv s) :
    writtenInv t := by
  obtain ⟨hscr, hfull⟩ := hw
  cases h with
  | lost | discarded | absorbed => exact ⟨hscr, hfull⟩
  | aborted | headerOnly | completed => exact ⟨nofun, nofun⟩
  | accepted =>
    exact ⟨fun _ => ⟨Memory.find_write_same .., Memory.find_isSome_write (n := 0) nofun b⟩, nofun⟩
  | header k _ hst hk hc _ =>
    obtain ⟨hkind, hbelow⟩ := hscr hst
    obtain ⟨hpos, -⟩ := headerCount_of_detectorInv hd hst hk
    refine ⟨fun _ => ⟨?_, ?_⟩, fun hp => absurd (hst.symm.trans hp) nofun⟩
    · exact (Memory.find_write_other _ b (by omega)).trans hkind
    · rw [headerStored_cnt hc]
      exact Memory.find_isSome_write hbelow b
  | begun k hdr len _ _ _ hc hr =>
    refine ⟨nofun, fun _ i hi => ?_⟩
    rw [headerAccepted_cnt, hc, ← memRead_length hr] at hi
    show ((Memory.writeAll s.full 0 hdr).find i).isSome = true
    rw [Memory.find_writeAll, if_pos (by omega)]
    simpa using hi
  | payload _ hst hc _ =>
    refine ⟨fun hp => absurd (hst.symm.trans hp) nofun, fun _ => ?_⟩
    rw [payloadStored_cnt hc]
    exact Memory.find_isSome_write (hfull hst) b

theorem ReceiveCase.keeps_declaredInv (h : ReceiveCase b s t) (hd : detectorInv s) (hdecl : declaredInv s) :
    declaredInv t := by
  cases h with
  | lost | discarded | absorbed => exact hdecl
  | accepted | aborted | headerOnly | completed => exact nofun
  | header _ _ hst => exact fun hp => absurd (hst.symm.trans hp) nofun
  | begun k hdr len _ _ hk _ hr hp hg =>
    exact fun _ => ⟨k, hdr, len, hk, memRead_header (memRead_length hr), hp, hg, rfl⟩
  | payload _ hst =>
    obtain ⟨k, hdr, len, hk, hr, hp, hg, hexp⟩ := hdecl hst
    obtain ⟨k', hk', hlo, -⟩ := (detectorInv_pip hst).1 hd
    obtain rfl : k' = k := Option.some.inj (hk'.symm.trans hk)
    refine fun _ => ⟨k', hdr, len, hk, Eq.trans (memRead_congr _ _ fun j hj => ?_) hr, hp, hg, hexp⟩
    exact Memory.find_write_other _ b (by omega)

theorem ReceiveCase.keeps_regionsInv (h : ReceiveCase b s t) (hr : regionsInv s) : regionsInv t := by
  obtain ⟨hscr, hfull⟩ := regionsInv_iff.1 hr
  obtain ⟨hparams, -⟩ := h.frame
  refine regionsInv_iff.2 ⟨?_, ?_⟩
  · rcases h.scr_cases with e | ⟨-, e⟩ | ⟨-, hc, e⟩ <;> rw [e]
    · exact hscr
    · exact Memory.within_write hscr (by decide) b
    · exact Memory.within_write hscr hc b
  · rw [hparams]
    rcases h.full_cases with e | ⟨-, hc, e⟩ | ⟨k, hdr, -, -, -, hlen, e⟩ <;> rw [e]
    · exact hfull
    · exact Memory.within_write hfull hc b
    · have := headerSize_le k
      have := fullSize_ge s.params
      exact Memory.within_writeAll hfull (by omega)

theorem ReceiveCase.keeps_inv (h : ReceiveCase b s t) (hI : MachineInv s) : MachineInv t where
  detector := h.keeps_detectorInv hI.detector
  lifecycle := h.keeps_lifecycleInv hI.lifecycle
  written := h.keeps_writtenInv hI.detector hI.written
  declared := h.keeps_declaredInv hI.detector hI.declared
  regions := h.keeps_regionsInv hI.regions
  buffers := by
    obtain ⟨-, -, -, ⟨hout, hbufs⟩, -⟩ := h.frame
    unfold buffersInv
    rw [hout, hbufs]
    exact hI.buffers

end ReceiveInvariant

/-! ### What the other agents' requests leave unchanged (10_state.md R32) -/

section OtherFrames

variable {s t : State}

theorem SendCase.frame {kind : Byte} (h : SendCase kind s t) : sameReceiveView t s ∧ t.pending = s.pending := by
  cases h <;> simp [sameReceiveView]

theorem TxDoneCase.frame (h : TxDoneCase s t) : sameReceiveView t s ∧ t.pending = s.pending := by
  cases h <;> simp [sameReceiveView]

theorem HandoffCase.frame (h : HandoffCase s t) :
    sameEngine t s ∧ t.refused = s.refused ∧ t.port = s.port ∧ t.pending = s.pending := by
  cases h <;> simp [sameEngine]

theorem InitCase.frame (h : InitCase s t) :
    t.params = s.params ∧ t.port = s.port ∧ t.resets = s.resets ∧ t.scr = s.scr ∧ t.full = s.full ∧ sameSendView t s ∧
      t.pending = s.pending := by
  cases h <;> simp [sameSendView]

theorem sameReceiveView.parts (h : sameReceiveView t s) :
    t.params = s.params ∧ t.port = s.port ∧ t.resets = s.resets ∧ t.init = s.init ∧ t.cb = s.cb ∧ sameDetector t s := by
  obtain ⟨hparams, hinit, hst, hkind, hcnt, hexp, hscr, hfull, hcb, hport, hresets⟩ := h
  exact ⟨hparams, hport, hresets, hinit, hcb, hst, hkind, hcnt, hexp, hscr, hfull⟩

theorem refuse_sameEngine (s : State) (why : RefuseReason) : sameEngine (s.refuse why) s :=
  ⟨rfl, rfl, rfl, rfl, rfl, rfl, rfl, rfl, rfl, rfl, rfl, rfl⟩

theorem take_sameEngine (s : State) (r : Request) (rest : List Request) : sameEngine (s.take r rest) s :=
  ⟨rfl, rfl, rfl, rfl, rfl, rfl, rfl, rfl, rfl, rfl, rfl, rfl⟩

end OtherFrames

/-! ### The buffers' invariant, one rule per operation on `out` and the frame buffers (20_memory.md R50) -/

section Buffers

variable {s : State} {h : BufHandle}

theorem buffersInv_store {m : Memory} (hb : buffersInv s) (hm : m.wf) : buffersInv (s.store h m) := by
  obtain ⟨hout, hbufs, hwf, hlive⟩ := hb
  refine ⟨hout, putBuf_sorted hbufs, fun x hx => ?_, fun x hx => ?_⟩
  · rcases mem_putBuf hx with rfl | hx
    · exact hm
    · exact hwf x hx
  · rw [State.store_bufs, findBuf_put]
    split
    · rfl
    · exact hlive x hx

theorem buffersInv_insert (hb : buffersInv s) (hh : (findBuf h s.bufs).isSome = true) :
    buffersInv { s with out := insertHandle h s.out } := by
  obtain ⟨hout, hbufs, hwf, hlive⟩ := hb
  refine ⟨insertHandle_sorted hout, hbufs, hwf, fun x hx => ?_⟩
  rcases mem_insertHandle.1 hx with rfl | hx
  · exact hh
  · exact hlive x hx

theorem buffersInv_erase (hb : buffersInv s) : buffersInv { s with out := eraseHandle h s.out } := by
  obtain ⟨hout, hbufs, hwf, hlive⟩ := hb
  exact ⟨eraseHandle_sorted hout, hbufs, hwf, fun x hx => hlive x (mem_eraseHandle.1 hx).1⟩

theorem buffersInv_release (hb : buffersInv s) (hh : h ∉ s.out) : buffersInv (s.release h) := by
  obtain ⟨hout, hbufs, hwf, hlive⟩ := hb
  refine ⟨hout, dropBuf_sorted hbufs, fun x hx => hwf x (mem_dropBuf hx), fun x hx => ?_⟩
  have hne : x ≠ h := fun e => hh (e ▸ hx)
  rw [State.release_bufs, findBuf_drop_other hne]
  exact hlive x hx

theorem not_mem_out_of_not_live (hl : isLive h s = false) : h ∉ s.out := by
  simpa [isLive] using hl

end Buffers

/-! ### Every step keeps the invariant -/

section StepInvariant

variable {s t : State}

/-- A request that leaves the receive view alone need only care for the buffers. -/
theorem MachineInv.of_sameReceiveView (hI : MachineInv s) (h : sameReceiveView t s) (hb : buffersInv t) :
    MachineInv t := by
  cases s
  cases t
  obtain ⟨rfl, rfl, rfl, rfl, rfl, rfl, rfl, rfl, rfl, rfl, rfl⟩ := h
  exact ⟨hI.detector, hI.lifecycle, hI.written, hI.declared, hI.regions, hb⟩

theorem SendCase.keeps_buffersInv {kind : Byte} (h : SendCase kind s t) (hb : buffersInv s) : buffersInv t := by
  cases h with
  | beforeInit | outOfMemory | stale => exact hb
  | failed h m _ _ hl hm =>
    have hstored : buffersInv (s.store h m) := buffersInv_store hb (frame_wf hm)
    exact buffersInv_release hstored (not_mem_out_of_not_live hl)
  | submitted h m _ _ _ hm =>
    have hstored : buffersInv (s.store h m) := buffersInv_store hb (frame_wf hm)
    refine buffersInv_insert hstored (h := h) ?_
    rw [State.store_bufs, findBuf_put, if_pos rfl, Option.isSome_some]

theorem TxDoneCase.keeps_buffersInv (h : TxDoneCase s t) (hb : buffersInv s) : buffersInv t := by
  cases h with
  | unknown => exact hb
  | released =>
    have herased : buffersInv { s with out := eraseHandle s.port.ops.h s.out } := buffersInv_erase hb
    exact buffersInv_release herased fun hmem => (mem_eraseHandle.1 hmem).2 rfl

theorem InitCase.keeps_inv (h : InitCase s t) (hI : MachineInv s) : MachineInv t := by
  cases h with
  | noCallback | again | failed =>
    exact hI.of_sameEngine ⟨rfl, rfl, rfl, rfl, rfl, rfl, rfl, rfl, rfl, rfl, rfl, rfl⟩
  | initialized =>
    exact .of_idle rfl ⟨rfl, rfl, rfl⟩ ⟨nofun, fun _ => nofun⟩ hI.regions hI.buffers

theorem exec_keeps_inv {i : Instr} (h : exec i s = .next t) (hI : MachineInv s) : MachineInv t := by
  cases exec_cases h with
  | receive b _ hc => exact hc.keeps_inv hI
  | send kind _ hc => exact hI.of_sameReceiveView hc.frame.1 (hc.keeps_buffersInv hI.buffers)
  | txDone _ hc => exact hI.of_sameReceiveView hc.frame.1 (hc.keeps_buffersInv hI.buffers)
  | handoff _ hc => exact hI.of_sameEngine hc.frame.1
  | init _ hc => exact hc.keeps_inv hI
  | reserved op _ hc => exact hI.of_sameEngine (hc ▸ refuse_sameEngine s _)

end StepInvariant

/-- Settles O50, by the three things a step can do (`step_next`); the instruction's case is `exec_keeps_inv`. -/
theorem stepKeepsInv : Obligations.StepKeepsInv := by
  intro s t hI hstep
  rcases step_next hstep with ⟨-, rfl⟩ | ⟨r, rest, i, -, -, hexec⟩ | ⟨r, rest, e, -, -, rfl⟩
  · exact hI
  · exact exec_keeps_inv hexec (hI.of_sameEngine (take_sameEngine s r rest))
  · exact (hI.of_sameEngine (take_sameEngine s r rest)).of_sameEngine (refuse_sameEngine _ _)

/-! ### The cases are complete: an instruction in a case's situation answers that case's state -/

section CasesComplete

variable {b : Byte} {s t : State}

/-- Before INIT a byte is lost (41_receive.md R87). -/
theorem receiveByte_uninit (b : Byte) (hi : s.init = false) : receiveByte b s = .next s := by
  unfold receiveByte
  rw [hi, if_neg Bool.false_ne_true]

/-- The legacy dead end absorbs a byte (R92). -/
theorem receiveByte_sync (b : Byte) (hi : s.init = true) (hst : s.st = .dh) (hk : s.kind = 0x03) :
    receiveByte b s = .next s := by
  rw [receiveByte_dh b hi hst, receiveHeader, if_pos hk]

theorem receiveByte_of_case (h : ReceiveCase b s t) : receiveByte b s = .next t := by
  cases h with
  | lost hi => exact receiveByte_uninit b hi
  | discarded hi hst ha => rw [receiveByte_dm b hi hst, receiveMarker_eq, ha, if_neg Bool.false_ne_true]
  | accepted hi hst ha => rw [receiveByte_dm b hi hst, receiveMarker_eq, if_pos ha]
  | absorbed hi hst hk => exact receiveByte_sync b hi hst hk
  | header k hi hst hk hc hn => exact receiveByte_header hi hst hk hc hn
  | aborted k hdr len hi hst hk hc hr hp hg =>
    rw [receiveByte_lastHeader hi hst hk hc hr hp, hg, if_neg Bool.false_ne_true]
  | begun k hdr len hi hst hk hc hr hp hg hz =>
    rw [receiveByte_lastHeader hi hst hk hc hr hp, if_pos hg, if_neg hz]
  | headerOnly k hdr len hi hst hk hc hr hp hg hz =>
    rw [receiveByte_lastHeader hi hst hk hc hr hp, if_pos hg, if_pos hz]
  | payload hi hst hc hn => exact receiveByte_payload hi hst hc hn
  | completed bytes hi hst hc hn hr =>
    obtain ⟨-, rfl⟩ := memRead_eq_some.1 hr
    rw [receiveByte_lastPayload hi hst hc hn]
    simp only [Nat.zero_add]

theorem execSend_of_case {kind : Byte} (h : SendCase kind s t) : exec (.send kind) s = .next t := by
  cases h with
  | beforeInit hi => simp [exec, execSend, hi]
  | outOfMemory hi ha => simp [exec, execSend, hi, ha]
  | stale h hi ha hl => simp [exec, execSend, hi, ha, hl]
  | failed h m hi ha hl hm hw => simp [exec, execSend, hi, ha, hl, hm, hw]
  | submitted h m hi ha hl hm hw => simp [exec, execSend, hi, ha, hl, hm, hw]

theorem execTxDone_of_case (h : TxDoneCase s t) : exec .txDone s = .next t := by
  cases h with
  | unknown hm => simp [exec, execTxDone, hm]
  | released hm => simp [exec, execTxDone, hm]

theorem execInit_of_case (h : InitCase s t) : exec .init s = .next t := by
  cases h with
  | noCallback hc => simp [exec, execInit, hc]
  | again c hc hi => simp [exec, execInit, hc, hi]
  | failed c hc hi ha => simp [exec, execInit, hc, hi, ha]
  | initialized c hc hi ha => simp [exec, execInit, hc, hi, ha]

/-- HANDOFF reads its operands and answers alone: in any state with the same ones it makes the same outputs, and writes
nothing else (43_handoff.md R123). -/
theorem execHandoff_of_samePort {u : State} (hops : u.port.ops = s.port.ops) (hans : u.port.ans = s.port.ans)
    (h : exec .handoff s = .next t) :
    ∃ l, t = { s with trace := s.trace ++ l } ∧ exec .handoff u = .next { u with trace := u.trace ++ l } := by
  change execHandoff s = _ at h
  change ∃ l, _ ∧ execHandoff u = _
  unfold execHandoff at h ⊢
  rw [hops, hans]
  simp only at h ⊢
  split at h
  · next hn =>
    cases h
    exact ⟨_, rfl, by rw [if_pos hn]; rfl⟩
  · next hn =>
    rw [if_neg hn]
    split at h
    · cases h
    · next marker _ hb =>
      split at h
      · next hv =>
        rw [if_pos hv]
        split at h
        · cases h
        · next bytes hr =>
          cases h
          refine ⟨[.event (.receive marker bytes (s.port.ops.n.toNat - 1)), .event (.free s.port.ops.hb),
            .result (.upper s.port.ans.receive)], ?_, ?_⟩ <;> simp [State.emit, State.answer]
      · next hv =>
        cases h
        exact ⟨_, rfl, by rw [if_neg hv]; rfl⟩

end CasesComplete

/-! ### With typed requests no step stops (20_memory.md R36, 60_exceptions.md R135) -/

section Progress

variable {s t : State}

theorem receiveByte_answers (b : Byte) (hI : MachineInv s) : ∃ t, receiveByte b s = .next t := by
  have hd := hI.detector
  cases hi : s.init with
  | false => exact ⟨s, receiveByte_uninit b hi⟩
  | true =>
    cases hst : s.st with
    | dm =>
      rw [receiveByte_dm b hi hst, receiveMarker_eq]
      split <;> exact ⟨_, rfl⟩
    | dh =>
      rcases (detectorInv_dh hst).1 hd with ⟨k, hk, -, hle⟩ | ⟨-, hsync, -⟩
      · have hH := headerSize_le k
        by_cases hc : s.cnt.toNat = headerSize k
        · have hr := memRead_of_le (.scr s.resets) (size := 5) (s.scr.write s.cnt.toNat b) (i := 1) (n := headerSize k)
            (by omega)
          obtain ⟨len, hp⟩ := payloadLen_isSome k (memRead_length hr)
          rw [receiveByte_lastHeader hi hst hk hc hr hp]
          split
          · split <;> exact ⟨_, rfl⟩
          · exact ⟨_, rfl⟩
        · exact ⟨_, receiveByte_header hi hst hk (by omega) hc⟩
      · exact ⟨s, receiveByte_sync b hi hst hsync⟩
    | pip =>
      obtain ⟨k, -, -, hlt, hfit⟩ := (detectorInv_pip hst).1 hd
      have hc : s.cnt.toNat < fullSize s.params := by omega
      by_cases hn : s.cnt.toNat + 1 = s.exp.toNat
      · exact ⟨_, receiveByte_lastPayload hi hst hc hn⟩
      · exact ⟨_, receiveByte_payload hi hst hc hn⟩
    | unused => exact absurd hd (not_detectorInv_unused hst)

theorem execSend_answers (kind : Byte) (ht : s.port.ops.typed) : ∃ t, exec (.send kind) s = .next t := by
  have hm := frame_typed kind s.port.ops.payload
  rw [ht.1] at hm
  cases hi : s.init with
  | false => exact ⟨_, execSend_of_case (.beforeInit hi)⟩
  | true =>
    cases ha : s.port.ans.alloc with
    | none => exact ⟨_, execSend_of_case (.outOfMemory hi ha)⟩
    | some h =>
      cases hl : isLive h s with
      | true => exact ⟨_, execSend_of_case (.stale h hi ha hl)⟩
      | false =>
        cases hw : s.port.ans.write with
        | fail => exact ⟨_, execSend_of_case (.failed h _ hi ha hl hm hw)⟩
        | ok => exact ⟨_, execSend_of_case (.submitted h _ hi ha hl hm hw)⟩

theorem execTxDone_answers (s : State) : ∃ t, exec .txDone s = .next t := by
  by_cases hm : s.port.ops.h ∈ s.out
  · exact ⟨_, execTxDone_of_case (.released hm)⟩
  · exact ⟨_, execTxDone_of_case (.unknown hm)⟩

theorem execInit_answers (s : State) : ∃ t, exec .init s = .next t := by
  cases hc : s.port.ops.cb with
  | none => exact ⟨_, execInit_of_case (.noCallback hc)⟩
  | some c =>
    cases hi : s.init with
    | true => exact ⟨_, execInit_of_case (.again c hc hi)⟩
    | false =>
      cases ha : s.port.ans.acquire with
      | fail => exact ⟨_, execInit_of_case (.failed c hc hi ha)⟩
      | ok => exact ⟨_, execInit_of_case (.initialized c hc hi ha)⟩

/-- A hand-off buffer of `n` bytes is never read past its end (log 13). -/
theorem execHandoff_answers (ht : s.port.ops.typed) : ∃ t, exec .handoff s = .next t := by
  obtain ⟨-, hlen⟩ := ht
  change ∃ t, execHandoff s = .next t
  unfold execHandoff
  simp only
  split
  · exact ⟨_, rfl⟩
  · next hn =>
    split
    · next hnil => exact absurd (hlen.symm.trans (congrArg List.length hnil)) hn
    · split
      · have hr : seqRead s.port.ops.hbBytes 1 (s.port.ops.n.toNat - 1) = some _ :=
          seqRead_eq_some.2 ⟨.inr (by omega), rfl⟩
        rw [hr]
        exact ⟨_, rfl⟩
      · exact ⟨_, rfl⟩

theorem exec_answers (i : Instr) (hI : MachineInv s) (ht : s.port.ops.typed) : ∃ t, exec i s = .next t := by
  cases i with
  | init => exact execInit_answers s
  | send kind => exact execSend_answers kind ht
  | txDone => exact execTxDone_answers s
  | handoff => exact execHandoff_answers ht
  | rxByte | markerCmd | markerAcl | markerSync | markerEvt | markerOther => exact receiveByte_answers _ hI
  | reservedOp5 | reservedOp6 | reservedOp7 => exact ⟨_, rfl⟩

/-! ### What is pending stays typed -/

theorem ReceiveCase.pending_cases {b : Byte} (h : ReceiveCase b s t) :
    t.pending = s.pending ∨ t.pending = laterRequests s.port.consumer ++ s.pending := by
  cases h with
  | lost | discarded | accepted | absorbed | header | aborted | begun | payload => exact .inl rfl
  | headerOnly | completed => exact .inr rfl

/-- Only a byte can change what is pending (41_receive.md R105). -/
theorem exec_pending_cases {i : Instr} (h : exec i s = .next t) :
    t.pending = s.pending ∨ t.pending = laterRequests s.port.consumer ++ s.pending := by
  cases exec_cases h with
  | receive _ _ hc => exact hc.pending_cases
  | send _ _ hc => exact .inl hc.frame.2
  | txDone _ hc => exact .inl hc.frame.2
  | handoff _ hc =>
    obtain ⟨-, -, -, hpending⟩ := hc.frame
    exact .inl hpending
  | init _ hc =>
    obtain ⟨-, -, -, -, -, -, hpending⟩ := hc.frame
    exact .inl hpending
  | reserved _ _ hc => exact .inl (hc ▸ rfl)

/-- The consumer's requests are of typed operands where its calls are, and have no consumer of their own. -/
theorem laterRequests_typed {cs : List Call} (hcs : ∀ c ∈ cs, c.ops.typed) : ∀ r ∈ laterRequests cs, r.port.typed := by
  intro r hr
  obtain ⟨c, hc, rfl⟩ := List.mem_map.1 hr
  exact ⟨hcs c (List.mem_filter.1 hc).1, nofun⟩

theorem exec_keeps_inputsTyped {i : Instr} (h : exec i s = .next t) (hp : s.port.typed) (hin : inputsTyped s) :
    inputsTyped t := by
  unfold inputsTyped
  rcases exec_pending_cases h with e | e <;> rw [e]
  · exact hin
  · intro r hr
    rcases List.mem_append.1 hr with hr | hr
    · exact laterRequests_typed hp.2 r hr
    · exact hin r hr

end Progress

/-- Settles O51: the next request has typed operands, so its instruction answers (`exec_answers`); what it answers meets
the invariant by O50. -/
theorem stepNeverStops : Obligations.StepNeverStops := by
  intro s hI htyped
  suffices h : ∃ t, step s = .next t ∧ inputsTyped t by
    obtain ⟨t, hstep, ht⟩ := h
    exact ⟨t, hstep, stepKeepsInv s t hI hstep, ht⟩
  cases hpending : s.pending with
  | nil => exact ⟨s, step_nil hpending, htyped⟩
  | cons r rest =>
    unfold inputsTyped at htyped
    rw [hpending] at htyped
    obtain ⟨hr, hrest⟩ := List.forall_mem_cons.1 htyped
    cases hdecode : decode r.code with
    | error e => exact ⟨_, step_refused hpending hdecode, hrest⟩
    | ok i =>
      obtain ⟨t, hexec⟩ := exec_answers (s := s.take r rest) i (hI.of_sameEngine (take_sameEngine s r rest)) hr.1
      exact ⟨t, (step_cons hpending hdecode).trans hexec, exec_keeps_inputsTyped hexec hr hrest⟩

/-! ### Footprints: what each agent's requests leave unchanged (10_state.md R32) -/

section Footprints

variable {b : Byte} {s t : State}

/-- No request but INIT writes `init` (10_state.md R17). -/
theorem exec_keeps_init {i : Instr} (hi : i ≠ .init) (h : exec i s = .next t) : t.init = s.init := by
  cases exec_cases h with
  | init hk _ => exact absurd hk hi
  | receive _ _ hc =>
    obtain ⟨-, hinit, -⟩ := hc.frame
    exact hinit
  | send _ _ hc =>
    obtain ⟨-, -, -, hinit, -⟩ := hc.frame.1.parts
    exact hinit
  | txDone _ hc =>
    obtain ⟨-, -, -, hinit, -⟩ := hc.frame.1.parts
    exact hinit
  | handoff _ hc =>
    obtain ⟨⟨-, hinit, -⟩, -⟩ := hc.frame
    exact hinit
  | reserved _ _ hc => exact hc ▸ rfl

/-- An INIT that makes `init` true has acquired the channel and bound its callback (44_lifecycle.md R127). -/
theorem InitCase.binds (h : InitCase s t) (hne : t.init ≠ s.init) :
    s.port.ans.acquire = .ok ∧ s.port.ops.cb = t.cb ∧ t.cb ≠ none := by
  cases h with
  | noCallback | again | failed => exact absurd rfl hne
  | initialized c hcb _ ha => exact ⟨ha, hcb, nofun⟩

/-- A byte outside the range of a write reads as before. -/
theorem Memory.read_writeAll_other (sp : Space) (m : Memory) {i j : Nat} {v : List Byte}
    (h : ¬(i ≤ j ∧ j < i + v.length)) : (m.writeAll i v).read sp j = m.read sp j := by
  unfold Memory.read
  rw [Memory.find_writeAll, if_neg h]

/-- A dispatch delivers one packet, and the refusals its consumer meets deliver none. -/
theorem deliveries_delivered (s : State) (bytes : List Byte) :
    deliveries (delivered s bytes).trace = deliveries s.trace + 1 := by
  rw [State.toDM_trace, State.consumerReturns_trace, deliveries_append, deliveries_refusals, State.emit_trace,
    deliveries_append, deliveries_deliver, deliveries_nil]

/-- A byte that delivers nothing outputs nothing, and neither refuses nor adds a request. -/
theorem ReceiveCase.quiet (h : ReceiveCase b s t) (hn : deliveries t.trace = deliveries s.trace) :
    t.trace = s.trace ∧ t.pending = s.pending ∧ t.refused = s.refused := by
  cases h with
  | lost | discarded | accepted | absorbed | header | aborted | begun | payload => exact ⟨rfl, rfl, rfl⟩
  | headerOnly | completed =>
    rw [deliveries_delivered] at hn
    exact absurd hn (Nat.succ_ne_self _)

theorem ReceiveCase.scr_read (h : ReceiveCase b s t) (sp : Space) {a : Nat} (hdm : ¬(s.st = .dm ∧ a = 0))
    (hdh : ¬(s.st = .dh ∧ a = s.cnt.toNat)) : t.scr.read sp a = s.scr.read sp a := by
  rcases h.scr_cases with e | ⟨hst, e⟩ | ⟨hst, -, e⟩ <;> rw [e]
  · exact Memory.read_write_other _ _ _ fun h0 => hdm ⟨hst, h0.symm⟩
  · exact Memory.read_write_other _ _ _ fun hc => hdh ⟨hst, hc.symm⟩

theorem ReceiveCase.full_read (h : ReceiveCase b s t) (sp : Space) {a : Nat} (hpip : ¬(s.st = .pip ∧ a = s.cnt.toNat))
    (hdh : ¬(s.st = .dh ∧ ∃ k, kindOf s.kind = some k ∧ s.cnt.toNat = headerSize k ∧ a < headerSize k)) :
    t.full.read sp a = s.full.read sp a := by
  rcases h.full_cases with e | ⟨hst, -, e⟩ | ⟨k, hdr, hst, hk, hc, hlen, e⟩ <;> rw [e]
  · exact Memory.read_write_other _ _ _ fun hc => hpip ⟨hst, hc.symm⟩
  · exact Memory.read_writeAll_other _ _ fun hin => hdh ⟨hst, k, hk, hc, by omega⟩

end Footprints

/-- Settles O14: the request is INIT, since no other writes `init`; what that INIT did is `InitCase.binds`. -/
theorem onlyInitInitializes : Obligations.OnlyInitInitializes := by
  intro s t hstep hs ht
  have hne : t.init ≠ s.init := fun e => Bool.noConfusion ((hs.symm.trans e.symm).trans ht)
  rcases step_next hstep with ⟨-, rfl⟩ | ⟨r, rest, i, hpending, hdecode, hexec⟩ | ⟨r, rest, e, -, -, rfl⟩
  · exact absurd rfl hne
  · by_cases hi : i = .init
    · subst hi
      exact ⟨r, rest, hpending, hdecode, (execInit_cases hexec).binds hne⟩
    · exact absurd (exec_keeps_init hi hexec) hne
  · exact absurd rfl hne

/-- Settles O24, from the frame of the receive cases and the two regions' reads. -/
theorem receiveFrame : Obligations.ReceiveFrame := by
  intro i b s t hb hexec
  rw [exec_presented hb] at hexec
  have hc := receiveByte_cases hexec
  obtain ⟨hparams, hinit, hcb, ⟨hout, hbufs⟩, hport, hresets⟩ := hc.frame
  rw [hresets]
  exact ⟨hparams, hinit, hcb, hout, hbufs, hport, rfl, fun _ => hc.scr_read _, fun _ => hc.full_read _, hc.quiet⟩

/-- Settles O36, agent by agent from the frames of the cases. -/
theorem agentFootprints : Obligations.AgentFootprints := by
  intro i s t hexec
  cases exec_cases hexec with
  | receive b hb hc =>
    obtain ⟨hparams, hinit, hcb, hsend, hport, hresets⟩ := hc.frame
    rw [agentOf_receive.2 ⟨b, hb⟩]
    exact ⟨hparams, hport, hresets, hinit, hcb, hsend⟩
  | send kind hk hc =>
    obtain ⟨hview, hpending⟩ := hc.frame
    obtain ⟨hparams, hport, hresets, hinit, hcb, hdetector⟩ := hview.parts
    subst hk
    exact ⟨hparams, hport, hresets, hinit, hcb, hdetector, hpending⟩
  | txDone hk hc =>
    obtain ⟨hview, hpending⟩ := hc.frame
    obtain ⟨hparams, hport, hresets, hinit, hcb, hdetector⟩ := hview.parts
    subst hk
    exact ⟨hparams, hport, hresets, hinit, hcb, hdetector, hpending⟩
  | handoff hk hc =>
    obtain ⟨hengine, hrefused, hport, hpending⟩ := hc.frame
    have ⟨hparams, _, _, _, _, _, _, _, _, _, _, hresets⟩ := hengine
    subst hk
    exact ⟨hparams, hport, hresets, hengine, hrefused, hpending⟩
  | init hk hc =>
    obtain ⟨hparams, hport, hresets, hscr, hfull, hsend, hpending⟩ := hc.frame
    subst hk
    exact ⟨hparams, hport, hresets, hscr, hfull, hsend, hpending⟩
  | reserved op hk hc =>
    subst hc
    rw [hk]
    exact ⟨rfl, rfl, rfl, refuse_sameEngine s _, rfl⟩

/-! ### The counters (10_state.md R20, R21) -/

section Counters

variable {b : Byte} {s t : State}

/-- How `exp` and `cnt` may move in one step. -/
def CountersMove (s t : State) : Prop :=
  (t.exp ≠ s.exp → (s.st = .dh ∧ t.st = .pip) ∨ (t.st = .dm ∧ t.exp = 0)) ∧
    (t.cnt ≠ s.cnt → (t.st = s.st ∧ t.cnt = s.cnt + 1) ∨ (s.st = .dm ∧ t.st = .dh ∧ t.cnt = 1) ∨
      (t.st = .dm ∧ t.cnt = 0))

theorem CountersMove.of_eq (hexp : t.exp = s.exp) (hcnt : t.cnt = s.cnt) : CountersMove s t :=
  ⟨fun h => absurd hexp h, fun h => absurd hcnt h⟩

theorem CountersMove.of_idle (hst : t.st = .dm) (hexp : t.exp = 0) (hcnt : t.cnt = 0) : CountersMove s t :=
  ⟨fun _ => .inr ⟨hst, hexp⟩, fun _ => .inr (.inr ⟨hst, hcnt⟩)⟩

theorem ReceiveCase.countersMove (h : ReceiveCase b s t) : CountersMove s t := by
  cases h with
  | lost | discarded | absorbed => exact .of_eq rfl rfl
  | aborted | headerOnly | completed => exact .of_idle rfl rfl rfl
  | accepted _ hst => exact ⟨fun h => absurd rfl h, fun _ => .inr (.inl ⟨hst, rfl, rfl⟩)⟩
  | header | payload => exact ⟨fun h => absurd rfl h, fun _ => .inl ⟨rfl, rfl⟩⟩
  | begun k hdr len _ hst =>
    exact ⟨fun _ => .inl ⟨hst, rfl⟩, fun h => absurd (headerAccepted_cnt k hdr len b s) h⟩

theorem InitCase.countersMove (h : InitCase s t) : CountersMove s t := by
  cases h with
  | noCallback | again | failed => exact .of_eq rfl rfl
  | initialized => exact .of_idle rfl rfl rfl

theorem exec_countersMove {i : Instr} (h : exec i s = .next t) : CountersMove s t := by
  cases exec_cases h with
  | receive _ _ hc => exact hc.countersMove
  | init _ hc => exact hc.countersMove
  | send _ _ hc =>
    obtain ⟨-, -, -, -, -, -, -, hcnt, hexp, -⟩ := hc.frame.1.parts
    exact .of_eq hexp hcnt
  | txDone _ hc =>
    obtain ⟨-, -, -, -, -, -, -, hcnt, hexp, -⟩ := hc.frame.1.parts
    exact .of_eq hexp hcnt
  | handoff _ hc =>
    obtain ⟨⟨-, -, -, -, hcnt, hexp, -⟩, -⟩ := hc.frame
    exact .of_eq hexp hcnt
  | reserved _ _ hc => exact .of_eq (hc ▸ rfl) (hc ▸ rfl)

end Counters

/-- Settles O39: taking or refusing a request leaves the counters, and `exec_countersMove` says the rest. -/
theorem countersWrittenByRule : Obligations.CountersWrittenByRule := by
  intro s t hstep
  show CountersMove s t
  rcases step_next hstep with ⟨-, rfl⟩ | ⟨r, rest, i, -, -, hexec⟩ | ⟨r, rest, e, -, -, rfl⟩
  · exact .of_eq rfl rfl
  · exact exec_countersMove (s := s.take r rest) hexec
  · exact .of_eq rfl rfl

/-! ### The refusal mark (10_state.md R35) -/

section RefusalMark

variable {b : Byte} {s t : State}

/-- The mark is kept, and set where a refusal is recorded. -/
def RefusalsMarked (s t : State) : Prop :=
  (s.refused = true → t.refused = true) ∧
    ∃ l, t.trace = s.trace ++ l ∧ ∀ why, Output.refused why ∈ l → t.refused = true

theorem RefusalsMarked.of_same (hrefused : t.refused = s.refused) (htrace : t.trace = s.trace) : RefusalsMarked s t :=
  ⟨fun h => hrefused.trans h, [], htrace.trans (List.append_nil _).symm, nofun⟩

/-- An output that is no refusal asks nothing of the mark. -/
theorem RefusalsMarked.output {u : State} {o : Output} (h : RefusalsMarked s u) (ho : ∀ why, o ≠ .refused why)
    (hrefused : t.refused = u.refused) (htrace : t.trace = u.trace ++ [o]) : RefusalsMarked s t := by
  obtain ⟨hkept, l, hl, hset⟩ := h
  refine ⟨fun hs => hrefused.trans (hkept hs), l ++ [o], ?_, fun why hmem => hrefused.trans ?_⟩
  · rw [htrace, hl, List.append_assoc]
  · rcases List.mem_append.1 hmem with hmem | hmem
    · exact hset why hmem
    · exact absurd (List.mem_singleton.1 hmem).symm (ho why)

theorem RefusalsMarked.emit (h : RefusalsMarked s t) (e : Event) : RefusalsMarked s (t.emit e) :=
  h.output (o := .event e) nofun rfl rfl

theorem RefusalsMarked.answer (h : RefusalsMarked s t) (r : Result) : RefusalsMarked s (t.answer r) :=
  h.output (o := .result r) nofun rfl rfl

theorem RefusalsMarked.release (h : RefusalsMarked s t) (x : BufHandle) : RefusalsMarked s (t.release x) :=
  h.output (o := .event (.free x)) nofun rfl rfl

theorem RefusalsMarked.refl (s : State) : RefusalsMarked s s := .of_same rfl rfl

theorem RefusalsMarked.refuse (s : State) (why : RefuseReason) : RefusalsMarked s (s.refuse why) :=
  ⟨fun _ => rfl, [.refused why], rfl, fun _ _ => rfl⟩

/-- The refusals a dispatch records are those of the consumer's RX_BYTEs, and one of them sets the mark (R105). -/
theorem RefusalsMarked.delivered (s : State) (bytes : List Byte) : RefusalsMarked s (delivered s bytes) := by
  refine ⟨fun h => by simp [h], _, List.append_assoc .., fun why hmem => ?_⟩
  obtain ⟨hrx, -⟩ : (∃ c ∈ s.port.consumer, c.isRxByte = true) ∧ why = .rxDuringDeliver := by
    simpa using hmem
  have hany : s.port.consumer.any Call.isRxByte = true := List.any_eq_true.2 hrx
  simp [hany]

theorem ReceiveCase.refusalsMarked (h : ReceiveCase b s t) : RefusalsMarked s t := by
  cases h with
  | lost | discarded | accepted | absorbed | header | aborted | begun | payload => exact .of_same rfl rfl
  | headerOnly k hdr len =>
    have hdelivered := RefusalsMarked.delivered (headerAccepted k hdr len (headerStored b s)) hdr
    exact hdelivered
  | completed bytes =>
    have hdelivered := RefusalsMarked.delivered (payloadStored b s) bytes
    exact hdelivered

/-- What SEND has output once its frame is submitted, whatever the transport answers. -/
theorem RefusalsMarked.submission (s : State) (h : BufHandle) (m : Memory) (n : Nat) :
    RefusalsMarked s (((s.emit (.alloc n)).store h m).emit (.write h n h)) := by
  have halloc : RefusalsMarked s ((s.emit (.alloc n)).store h m) := (RefusalsMarked.refl s).emit (.alloc n)
  exact halloc.emit _

theorem SendCase.refusalsMarked {kind : Byte} (h : SendCase kind s t) : RefusalsMarked s t := by
  cases h with
  | beforeInit | stale => exact .refuse s _
  | outOfMemory => exact ((RefusalsMarked.refl s).emit _).answer _
  | failed h m => exact ((RefusalsMarked.submission s h m _).release h).answer _
  | submitted h m =>
    have hwritten := RefusalsMarked.submission s h m (1 + s.port.ops.len.toNat)
    exact RefusalsMarked.answer hwritten .ok

theorem TxDoneCase.refusalsMarked (h : TxDoneCase s t) : RefusalsMarked s t := by
  cases h with
  | unknown => exact .refuse s _
  | released =>
    have hreleased : RefusalsMarked s (s.release s.port.ops.h) := (RefusalsMarked.refl s).release _
    exact hreleased

theorem HandoffCase.refusalsMarked (h : HandoffCase s t) : RefusalsMarked s t := by
  cases h with
  | invalid => exact (RefusalsMarked.refl s).answer _
  | forwarded => exact (((RefusalsMarked.refl s).emit _).emit _).answer _

theorem InitCase.refusalsMarked (h : InitCase s t) : RefusalsMarked s t := by
  cases h with
  | noCallback => exact .refuse s _
  | again => exact (RefusalsMarked.refl s).answer _
  | failed => exact ((RefusalsMarked.refl s).emit _).answer _
  | initialized =>
    have hacquired := (RefusalsMarked.refl s).emit (.acquire s.port.ops.cfg)
    exact RefusalsMarked.answer hacquired .ok

theorem exec_refusalsMarked {i : Instr} (h : exec i s = .next t) : RefusalsMarked s t := by
  cases exec_cases h with
  | receive _ _ hc => exact hc.refusalsMarked
  | send _ _ hc => exact hc.refusalsMarked
  | txDone _ hc => exact hc.refusalsMarked
  | handoff _ hc => exact hc.refusalsMarked
  | init _ hc => exact hc.refusalsMarked
  | reserved op _ hc => exact hc ▸ .refuse s _

theorem step_refusalsMarked (h : step s = .next t) : RefusalsMarked s t := by
  rcases step_next h with ⟨-, rfl⟩ | ⟨r, rest, i, -, -, hexec⟩ | ⟨r, rest, e, -, -, rfl⟩
  · exact .of_same rfl rfl
  · exact exec_refusalsMarked (s := s.take r rest) hexec
  · exact .refuse (s.take r rest) _

/-! No rule reads the mark: the same cases arise whatever it is. -/

/-- The state with the refusal mark at `x`. -/
def State.withMark (s : State) (x : Bool) : State := { s with refused := x }

theorem ReceiveCase.withMark (h : ReceiveCase b s t) (x : Bool) : ∃ y, ReceiveCase b (s.withMark x) (t.withMark y) := by
  cases h with
  | lost hi => exact ⟨x, .lost hi⟩
  | discarded hi hst ha => exact ⟨x, .discarded hi hst ha⟩
  | accepted hi hst ha => exact ⟨x, .accepted hi hst ha⟩
  | absorbed hi hst hk => exact ⟨x, .absorbed hi hst hk⟩
  | header k hi hst hk hc hn => exact ⟨x, .header k hi hst hk hc hn⟩
  | aborted k hdr len hi hst hk hc hr hp hg => exact ⟨x, .aborted k hdr len hi hst hk hc hr hp hg⟩
  | begun k hdr len hi hst hk hc hr hp hg hz => exact ⟨x, .begun k hdr len hi hst hk hc hr hp hg hz⟩
  | payload hi hst hc hn => exact ⟨x, .payload hi hst hc hn⟩
  | headerOnly k hdr len hi hst hk hc hr hp hg hz => exact ⟨_, .headerOnly k hdr len hi hst hk hc hr hp hg hz⟩
  | completed bytes hi hst hc hn hr => exact ⟨_, .completed bytes hi hst hc hn hr⟩

theorem SendCase.withMark {kind : Byte} (h : SendCase kind s t) (x : Bool) :
    ∃ y, SendCase kind (s.withMark x) (t.withMark y) := by
  cases h with
  | beforeInit hi => exact ⟨true, .beforeInit hi⟩
  | outOfMemory hi ha => exact ⟨x, .outOfMemory hi ha⟩
  | stale h hi ha hl => exact ⟨true, .stale h hi ha hl⟩
  | failed h m hi ha hl hm hw => exact ⟨x, .failed h m hi ha hl hm hw⟩
  | submitted h m hi ha hl hm hw => exact ⟨x, .submitted h m hi ha hl hm hw⟩

theorem TxDoneCase.withMark (h : TxDoneCase s t) (x : Bool) : ∃ y, TxDoneCase (s.withMark x) (t.withMark y) := by
  cases h with
  | unknown hm => exact ⟨true, .unknown hm⟩
  | released hm => exact ⟨x, .released hm⟩

theorem InitCase.withMark (h : InitCase s t) (x : Bool) : ∃ y, InitCase (s.withMark x) (t.withMark y) := by
  cases h with
  | noCallback hc => exact ⟨true, .noCallback hc⟩
  | again c hc hi => exact ⟨x, .again c hc hi⟩
  | failed c hc hi ha => exact ⟨x, .failed c hc hi ha⟩
  | initialized c hc hi ha => exact ⟨x, .initialized c hc hi ha⟩

theorem receiveByte_withMark (h : receiveByte b s = .next t) (x : Bool) :
    ∃ y, receiveByte b (s.withMark x) = .next (t.withMark y) := by
  obtain ⟨y, hy⟩ := (receiveByte_cases h).withMark x
  exact ⟨y, receiveByte_of_case hy⟩

theorem exec_withMark {i : Instr} (h : exec i s = .next t) (x : Bool) :
    ∃ y, exec i (s.withMark x) = .next (t.withMark y) := by
  cases i with
  | rxByte | markerCmd | markerAcl | markerSync | markerEvt | markerOther => exact receiveByte_withMark h x
  | send kind =>
    obtain ⟨y, hy⟩ := (execSend_cases h).withMark x
    exact ⟨y, execSend_of_case hy⟩
  | txDone =>
    obtain ⟨y, hy⟩ := (execTxDone_cases h).withMark x
    exact ⟨y, execTxDone_of_case hy⟩
  | init =>
    obtain ⟨y, hy⟩ := (execInit_cases h).withMark x
    exact ⟨y, execInit_of_case hy⟩
  | handoff =>
    obtain ⟨l, rfl, hu⟩ := execHandoff_of_samePort (s := s) (u := s.withMark x) rfl rfl h
    exact ⟨x, hu⟩
  | reservedOp5 | reservedOp6 | reservedOp7 =>
    cases h
    exact ⟨true, rfl⟩

theorem step_withMark (h : step s = .next t) (x : Bool) : ∃ y, step (s.withMark x) = .next (t.withMark y) := by
  rcases step_next h with ⟨hnil, rfl⟩ | ⟨r, rest, i, hpending, hdecode, hexec⟩ | ⟨r, rest, e, hpending, hdecode, rfl⟩
  · exact ⟨x, step_nil hnil⟩
  · obtain ⟨y, hy⟩ := exec_withMark hexec x
    exact ⟨y, (step_cons (s := s.withMark x) hpending hdecode).trans hy⟩
  · exact ⟨true, step_refused (s := s.withMark x) hpending hdecode⟩

end RefusalMark

/-- Settles O37: `step_refusalsMarked` for what sets and keeps the mark, `step_withMark` for that nothing reads it. -/
theorem refusalMarkIsSticky : Obligations.RefusalMarkIsSticky := by
  intro s t hstep
  obtain ⟨hkept, l, htrace, hset⟩ := step_refusalsMarked hstep
  refine ⟨hkept, fun why l' htrace' hmem => ?_, fun h => h, step_withMark hstep⟩
  obtain rfl : l' = l := List.append_cancel_left (htrace'.symm.trans htrace)
  exact hset why hmem

/-! ### Reset and the numbers of the specification -/

/-- A region that lists nothing reads the free value everywhere (10_state.md R33). -/
theorem Memory.read_nil (sp : Space) (i : Nat) : Memory.read sp [] i = Config.unspecifiedByte sp i := rfl

/-- Settles O42, by reading `State.reset`; a region that lists nothing is unspecified at every index. -/
theorem resetValues : Obligations.ResetValues :=
  ⟨rfl, rfl, rfl, rfl, rfl, rfl, fun i => Memory.read_nil _ i, fun i => Memory.read_nil _ i, rfl, rfl, rfl⟩

/-- Settles O48: each encoding is a row of its table, and the destination a row of `destination`. -/
theorem specNumbers : Obligations.SpecNumbers := by
  refine ⟨rfl, rfl, rfl, rfl, rfl, rfl, rfl, rfl, fun _ => rfl, fun s => ?_⟩
  refine ⟨fun hst => ?_, fun hst => ?_, fun hst => ?_⟩ <;> simp only [destination, hst]

/-- Settles O49: the detector is idle at reset, and there is no callback, no region byte and no buffer. -/
theorem invAtReset : Obligations.InvAtReset :=
  .of_idle rfl ⟨rfl, rfl, rfl⟩ ⟨fun _ => ⟨rfl, rfl⟩, nofun⟩ ⟨.nil, .nil, nofun, nofun⟩ ⟨.nil, .nil, nofun, nofun⟩

end Sys2Proof.Machine

namespace Sys2Proof.Machine

/-! ### Which requests change `out` (10_state.md R26, 20_memory.md R50) -/

section Outstanding

variable {s t : State}

theorem SendCase.out_cases {kind : Byte} (h : SendCase kind s t) :
    t.out = s.out ∨ ∃ x, s.port.ans.alloc = some x ∧ s.port.ans.write = .ok ∧ t.out = insertHandle x s.out := by
  cases h with
  | beforeInit | outOfMemory | stale | failed => exact .inl rfl
  | submitted x _ _ ha _ _ hw => exact .inr ⟨x, ha, hw, rfl⟩

theorem TxDoneCase.out_cases (h : TxDoneCase s t) :
    t.out = s.out ∨
      t.out = eraseHandle s.port.ops.h s.out ∧ t.trace = s.trace ++ [.event (.free s.port.ops.h)] := by
  cases h with
  | unknown => exact .inl rfl
  | released => exact .inr ⟨rfl, rfl⟩

/-- Only an accepted SEND adds to `out`, and only TX_DONE removes from it. -/
theorem exec_out_cases {i : Instr} (h : exec i s = .next t) :
    t.out = s.out ∨
      (∃ kind x, i = .send kind ∧ s.port.ans.alloc = some x ∧ s.port.ans.write = .ok ∧
        t.out = insertHandle x s.out) ∨
      (i = .txDone ∧ t.out = eraseHandle s.port.ops.h s.out ∧
        t.trace = s.trace ++ [.event (.free s.port.ops.h)]) := by
  cases exec_cases h with
  | receive _ _ hc =>
    obtain ⟨-, -, -, ⟨hout, -⟩, -⟩ := hc.frame
    exact .inl hout
  | send kind hk hc => exact hc.out_cases.imp_right fun ⟨x, hx⟩ => .inl ⟨kind, x, hk, hx⟩
  | txDone hk hc => exact hc.out_cases.imp_right fun hx => .inr ⟨hk, hx⟩
  | handoff _ hc =>
    obtain ⟨⟨-, -, -, -, -, -, -, -, -, hout, -⟩, -⟩ := hc.frame
    exact .inl hout
  | init _ hc =>
    obtain ⟨-, -, -, -, -, ⟨hout, -⟩, -⟩ := hc.frame
    exact .inl hout
  | reserved _ _ hc => exact .inl (hc ▸ rfl)

end Outstanding

/-- Settles O32, by what the step's instruction does to `out` (`exec_out_cases`): the handle SEND inserts is the one
`Alloc` answered, and the handle TX_DONE erases is the one it names. -/
theorem outstandingUntilItsCompletion : Obligations.OutstandingUntilItsCompletion := by
  intro s t h hstep
  rcases step_next hstep with ⟨-, rfl⟩ | ⟨r, rest, i, hpending, hdecode, hexec⟩ | ⟨r, rest, e, -, -, rfl⟩
  · exact ⟨.inl, fun hnotin hin => absurd hin hnotin⟩
  · rcases exec_out_cases hexec with hout | ⟨kind, x, rfl, halloc, hwrite, hout⟩ | ⟨rfl, hout, htrace⟩
    · rw [hout]
      exact ⟨.inl, fun hnotin hin => absurd hin hnotin⟩
    · rw [hout, mem_insertHandle]
      refine ⟨fun hin => .inl (.inr hin), fun hnotin hin => ?_⟩
      obtain rfl : h = x := hin.resolve_right hnotin
      exact ⟨r, rest, kind, hpending, hdecode, halloc, hwrite⟩
    · rw [hout, mem_eraseHandle]
      refine ⟨fun hin => ?_, fun hnotin hin => absurd hin.1 hnotin⟩
      by_cases hh : h = r.port.ops.h
      · subst hh
        exact .inr ⟨r, rest, hpending, hdecode, rfl, htrace⟩
      · exact .inl ⟨hin, hh⟩
  · exact ⟨.inl, fun hnotin hin => absurd hin hnotin⟩

/-! ### What a request does, whatever the fields it does not read (20_memory.md R53)

A byte and a request of the send side each do the same to every state that agrees on the fields they read: they write
their own fields, and add to the mark, the pending requests and the record. -/

section Uniform

variable {b kind : Byte} {s t : State}

/-- `s` with the detector's fields of `d`. -/
def State.withDetector (s d : State) : State :=
  { s with st := d.st, kind := d.kind, cnt := d.cnt, exp := d.exp, scr := d.scr, full := d.full }

/-- `s` with the fields of `d` that the send path writes. -/
def State.withSendSide (s d : State) : State := { s with out := d.out, bufs := d.bufs }

/-- `s` after a request that sets the mark if `mark`, has `later` come next and outputs `l`. -/
def State.adding (s : State) (mark : Bool) (later : List Request) (l : List Output) : State :=
  { s with refused := s.refused || mark, pending := later ++ s.pending, trace := s.trace ++ l }

/-- `u` with the fields of `s` that the receive path reads or writes. -/
def State.withReceiveView (u s : State) : State :=
  { u.withDetector s with params := s.params, init := s.init, cb := s.cb, port := s.port, resets := s.resets }

/-- The two states agree on what SEND, TX_DONE and HANDOFF read. -/
def sameSendInputs (s t : State) : Prop := s.init = t.init ∧ s.port = t.port ∧ s.out = t.out ∧ s.bufs = t.bufs

/-- `u` with the fields of `s` that SEND, TX_DONE and HANDOFF read. -/
def State.withSendInputs (u s : State) : State := { u.withSendSide s with init := s.init, port := s.port }

theorem State.withReceiveView_of_same {u : State} (h : sameReceiveView s u) : u.withReceiveView s = u := by
  cases s
  cases u
  obtain ⟨rfl, rfl, rfl, rfl, rfl, rfl, rfl, rfl, rfl, rfl, rfl⟩ := h
  rfl

theorem State.withSendInputs_of_same {u : State} (h : sameSendInputs s u) : u.withSendInputs s = u := by
  cases s
  cases u
  obtain ⟨rfl, rfl, rfl, rfl⟩ := h
  rfl

theorem sameReceiveView.refl (s : State) : sameReceiveView s s :=
  ⟨rfl, rfl, rfl, rfl, rfl, rfl, rfl, rfl, rfl, rfl, rfl⟩

theorem sameReceiveView.adding {u : State} (h : sameReceiveView s u) (d : State) (mark : Bool) (later : List Request)
    (l : List Output) :
    sameReceiveView ((s.withDetector d).adding mark later l) ((u.withDetector d).adding mark later l) := by
  obtain ⟨hparams, hinit, -, -, -, -, -, -, hcb, hport, hresets⟩ := h
  exact ⟨hparams, hinit, rfl, rfl, rfl, rfl, rfl, rfl, hcb, hport, hresets⟩

theorem State.adding_nothing (s : State) : s.adding false [] [] = s := by
  simp [State.adding]

theorem State.adding_outputs (s : State) (l : List Output) :
    s.adding false [] l = { s with trace := s.trace ++ l } := by
  simp [State.adding]

theorem State.adding_refusal (s : State) (why : RefuseReason) : s.adding true [] [.refused why] = s.refuse why := by
  simp [State.adding, State.refuse]

/-- What a dispatch outputs: the packet, and a refusal for each RX_BYTE of the consumer (41_receive.md R101, R105). -/
def dispatchOutputs (s : State) (bytes : List Byte) : List Output :=
  .event (.deliver s.cb s.kind bytes s.exp) ::
    (s.port.consumer.filter Call.isRxByte).map fun _ => .refused .rxDuringDeliver

theorem delivered_eq_adding (s : State) (bytes : List Byte) :
    delivered s bytes =
      s.toDM.adding (s.port.consumer.any Call.isRxByte) (laterRequests s.port.consumer) (dispatchOutputs s bytes) := by
  simp [State.adding, State.toDM, State.consumerReturns, State.emit, laterRequests, dispatchOutputs]

/-- The byte brings every state with the receive view of `s` to the detector of `d`, with the same additions. -/
def ReceivesUniformly (b : Byte) (s d : State) : Prop :=
  ∃ mark later l, ∀ u : State, sameReceiveView s u →
    receiveByte b u = .next ((u.withDetector d).adding mark later l)

theorem ReceivesUniformly.of_quiet {d : State}
    (h : ∀ u : State, ReceiveCase b (u.withReceiveView s) ((u.withReceiveView s).withDetector d)) :
    ReceivesUniformly b s d := by
  refine ⟨false, [], [], fun u hview => ?_⟩
  have hcase := h u
  rw [State.withReceiveView_of_same hview] at hcase
  rw [State.adding_nothing]
  exact receiveByte_of_case hcase

theorem ReceivesUniformly.of_dispatch {d : State} {bytes : List Byte}
    (h : ∀ u : State, ReceiveCase b (u.withReceiveView s) (delivered ((u.withReceiveView s).withDetector d) bytes)) :
    ReceivesUniformly b s (delivered d bytes) := by
  refine ⟨s.port.consumer.any Call.isRxByte, laterRequests s.port.consumer, dispatchOutputs (s.withDetector d) bytes,
    fun u hview => ?_⟩
  have hcase := h u
  rw [delivered_eq_adding] at hcase
  rw [← State.withReceiveView_of_same hview]
  exact receiveByte_of_case hcase

theorem ReceiveCase.uniformly (h : ReceiveCase b s t) : ReceivesUniformly b s t := by
  cases h with
  | lost hi => exact .of_quiet fun _ => .lost hi
  | discarded hi hst ha => exact .of_quiet fun _ => .discarded hi hst ha
  | accepted hi hst ha => exact .of_quiet fun _ => .accepted hi hst ha
  | absorbed hi hst hk => exact .of_quiet fun _ => .absorbed hi hst hk
  | header k hi hst hk hc hn => exact .of_quiet fun _ => .header k hi hst hk hc hn
  | aborted k hdr len hi hst hk hc hr hp hg => exact .of_quiet fun _ => .aborted k hdr len hi hst hk hc hr hp hg
  | begun k hdr len hi hst hk hc hr hp hg hz => exact .of_quiet fun _ => .begun k hdr len hi hst hk hc hr hp hg hz
  | payload hi hst hc hn => exact .of_quiet fun _ => .payload hi hst hc hn
  | headerOnly k hdr len hi hst hk hc hr hp hg hz =>
    exact .of_dispatch fun _ => .headerOnly k hdr len hi hst hk hc hr hp hg hz
  | completed bytes hi hst hc hn hr => exact .of_dispatch fun _ => .completed bytes hi hst hc hn hr

/-- The request brings every state with the send inputs of `s` to the send side of `d`, with the same additions. -/
def SendsUniformly (j : Instr) (s d : State) : Prop :=
  ∃ mark l, ∀ u : State, sameSendInputs s u → exec j u = .next ((u.withSendSide d).adding mark [] l)

theorem SendsUniformly.of_refusal {j : Instr} {why : RefuseReason}
    (h : ∀ u : State, exec j (u.withSendInputs s) = .next ((u.withSendInputs s).refuse why)) :
    SendsUniformly j s (s.refuse why) := by
  refine ⟨true, [.refused why], fun u hinputs => ?_⟩
  rw [← State.withSendInputs_of_same hinputs, h, State.adding_refusal]
  rfl

theorem SendsUniformly.of_outputs {j : Instr} {d : State} (l : List Output)
    (h : ∀ u : State, ∃ record, record = u.trace ++ l ∧
      exec j (u.withSendInputs s) = .next { (u.withSendInputs s).withSendSide d with trace := record }) :
    SendsUniformly j s d := by
  refine ⟨false, l, fun u hinputs => ?_⟩
  obtain ⟨_, rfl, hexec⟩ := h u
  rw [State.withSendInputs_of_same hinputs] at hexec
  rw [hexec, State.adding_outputs]
  rfl

theorem SendCase.uniformly (h : SendCase kind s t) : SendsUniformly (.send kind) s t := by
  cases h with
  | beforeInit hi => exact .of_refusal fun _ => execSend_of_case (.beforeInit hi)
  | stale h hi ha hl => exact .of_refusal fun _ => execSend_of_case (.stale h hi ha hl)
  | outOfMemory hi ha =>
    exact .of_outputs [.event (.alloc (1 + s.port.ops.len.toNat)), .result .outOfMemory] fun u =>
      ⟨_, List.append_assoc .., execSend_of_case (.outOfMemory hi ha)⟩
  | failed h m hi ha hl hm hw =>
    exact .of_outputs [.event (.alloc (1 + s.port.ops.len.toNat)), .event (.write h (1 + s.port.ops.len.toNat) h),
      .event (.free h), .result .transportError] fun u =>
      ⟨_, by simp [State.withSendInputs, State.withSendSide], execSend_of_case (.failed h m hi ha hl hm hw)⟩
  | submitted h m hi ha hl hm hw =>
    exact .of_outputs [.event (.alloc (1 + s.port.ops.len.toNat)), .event (.write h (1 + s.port.ops.len.toNat) h),
      .result .ok] fun u =>
      ⟨_, by simp [State.withSendInputs, State.withSendSide], execSend_of_case (.submitted h m hi ha hl hm hw)⟩

theorem TxDoneCase.uniformly (h : TxDoneCase s t) : SendsUniformly .txDone s t := by
  cases h with
  | unknown hm => exact .of_refusal fun _ => execTxDone_of_case (.unknown hm)
  | released hm =>
    exact .of_outputs [.event (.free s.port.ops.h)] fun _ => ⟨_, rfl, execTxDone_of_case (.released hm)⟩

theorem execHandoff_uniformly (h : exec .handoff s = .next t) : SendsUniformly .handoff s t := by
  obtain ⟨l, rfl, -⟩ := execHandoff_of_samePort (s := s) (u := s) rfl rfl h
  refine .of_outputs l fun u => ⟨_, rfl, ?_⟩
  obtain ⟨l', ht, hu⟩ := execHandoff_of_samePort (s := s) (u := u.withSendInputs s) rfl rfl h
  obtain rfl : l = l' := List.append_cancel_left (congrArg State.trace ht)
  exact hu

theorem exec_sendsUniformly {j : Instr}
    (hj : agentOf j = some .sender ∨ agentOf j = some .completion ∨ agentOf j = some .handoff)
    (h : exec j s = .next t) : SendsUniformly j s t := by
  cases j with
  | send kind => exact (execSend_cases h).uniformly
  | txDone => exact (execTxDone_cases h).uniformly
  | handoff => exact execHandoff_uniformly h
  | init | rxByte | markerCmd | markerAcl | markerSync | markerEvt | markerOther | reservedOp5 | reservedOp6
  | reservedOp7 => simp [agentOf] at hj

end Uniform

/-- Settles O40: the byte does to the detector and adds what it does from `s` in every state with the receive view of
`s` (`ReceiveCase.uniformly`), and `s` and `u` are two of them. -/
theorem receiveIgnoresSendState : Obligations.ReceiveIgnoresSendState := by
  intro i b s u t hb hview hexec
  rw [exec_presented hb] at hexec ⊢
  obtain ⟨d, mark, later, l, huniform⟩ : ∃ d, ReceivesUniformly b s d := ⟨t, (receiveByte_cases hexec).uniformly⟩
  cases hexec.symm.trans (huniform s (sameReceiveView.refl s))
  exact ⟨_, l, huniform u hview, hview.adding d mark later l, rfl, rfl, rfl, rfl⟩

/-- Settles O41: the byte writes nothing the other request reads, and the other nothing the byte reads, so each does in
the other order what it did in this one; the two writes are of different fields, and the mark is a disjunction. -/
theorem receiveCommutesWithSend : Obligations.ReceiveCommutesWithSend := by
  intro i j p q s t u hi hj hit hju
  obtain ⟨b, hb⟩ := agentOf_receive.1 hi
  rw [exec_presented hb] at hit
  obtain ⟨d, mark, later, li, hreceive⟩ : ∃ d, ReceivesUniformly b { s with port := p } d :=
    ⟨t, (receiveByte_cases hit).uniformly⟩
  obtain ⟨e, markSend, lj, hsend⟩ : ∃ e, SendsUniformly j { t with port := q } e := ⟨u, exec_sendsUniformly hj hju⟩
  obtain rfl := Host.Outcome.next.inj (hju.symm.trans (hsend _ ⟨rfl, rfl, rfl, rfl⟩))
  obtain rfl := Host.Outcome.next.inj (hit.symm.trans (hreceive _ (.refl _)))
  refine ⟨_, li, lj, hsend { s with port := q } ⟨rfl, rfl, rfl, rfl⟩, rfl, rfl, rfl, ?_⟩
  rw [exec_presented hb]
  refine (hreceive _ ?_).trans ?_
  · exact ⟨rfl, rfl, rfl, rfl, rfl, rfl, rfl, rfl, rfl, rfl, rfl⟩
  · simp [State.adding, State.withDetector, State.withSendSide, Bool.or_right_comm]

end Sys2Proof.Machine

namespace Sys2Proof

/-! ### Wire bytes and their marker rows (30_encoding.md R60) -/

section Encoding

variable {w : ReqWord} {i : Instr} {b : Byte}

theorem otherMarker_iff : otherMarker b = true ↔ b ≠ 0x01 ∧ b ≠ 0x02 ∧ b ≠ 0x03 ∧ b ≠ 0x04 := by
  simp [otherMarker, and_assoc]

/-- A byte that is none of the four markers belongs to MARKER_OTHER. -/
theorem decodeMarker_other (h : otherMarker b = true) : decodeMarker b = .markerOther b := by
  obtain ⟨hcmd, hacl, hsync, hevt⟩ := otherMarker_iff.1 h
  rw [decodeMarker, if_neg hcmd, if_neg hacl, if_neg hsync, if_neg hevt]

theorem encode_decodeMarker (b : Byte) : encode (decodeMarker b) = .wire b ∧ (decodeMarker b).wellFormed = true := by
  by_cases hother : otherMarker b = true
  · rw [decodeMarker_other hother]
    exact ⟨rfl, hother⟩
  · obtain rfl | rfl | rfl | rfl : b = 0x01 ∨ b = 0x02 ∨ b = 0x03 ∨ b = 0x04 := by
      simpa [otherMarker_iff, imp_iff_not_or, or_assoc] using hother
    all_goals exact ⟨rfl, rfl⟩

/-! ### Request words and their op codes (R71, R72) -/

/-- The op codes whose data must be 0x00, and those whose data is an operand (R71, R72). -/
theorem op_cases (op : BitVec 3) :
    (op = 0 ∨ op = 3 ∨ op = 4) ∨ (op = 1 ∨ op = 2 ∨ op = 5 ∨ op = 6 ∨ op = 7) := by
  decide +revert

/-- A word with a reserved op code is a reserved request, whatever its data (R72). -/
theorem decodeWord_reserved (h : opOf w = 5 ∨ opOf w = 6 ∨ opOf w = 7) :
    ∃ j, decodeWord w = .ok j ∧ Machine.agentOf j = none := by
  rcases h with h | h | h
  · exact ⟨.reservedOp5 (dataOf w), by simp [decodeWord, h], rfl⟩
  · exact ⟨.reservedOp6 (dataOf w), by simp [decodeWord, h], rfl⟩
  · exact ⟨.reservedOp7 (dataOf w), by simp [decodeWord, h], rfl⟩

/-- INIT, TX_DONE and HANDOFF take no data (R72). -/
theorem decodeWord_nonzeroData (h : opOf w = 0 ∨ opOf w = 3 ∨ opOf w = 4) (hdata : dataOf w ≠ 0x00) :
    decodeWord w = .error (.nonzeroData (opOf w)) := by
  rcases h with h | h | h <;> simpa [decodeWord, zeroDataOnly, h] using hdata

/-- A word the decoder accepts is the encoding of what it gives: by the op code, the data being the operand, or 0x00 for
the three that have none. -/
theorem encode_of_decodeWord (h : decodeWord w = .ok i) : encode i = .word w ∧ i.wellFormed = true := by
  obtain ⟨op, data, rfl⟩ : ∃ op data, w = mkWord op data := ⟨opOf w, dataOf w, (mkWord_fields w).symm⟩
  simp only [decodeWord, opOf_mkWord, dataOf_mkWord] at h
  rcases op_cases op with hzero | hoperand
  · rcases hzero with rfl | rfl | rfl
    all_goals
      obtain ⟨rfl, rfl⟩ := zeroDataOnly_eq_ok.1 h
      exact ⟨rfl, rfl⟩
  · rcases hoperand with rfl | rfl | rfl | rfl | rfl
    all_goals
      cases h
      exact ⟨rfl, rfl⟩

/-- The code of a well-formed instruction lies in its row of the opcode table. -/
theorem encode_matchesRow (h : i.wellFormed = true) : (encode i).matchesRow (tableRow i) = true := by
  revert h
  cases i with
  | init => exact Laws.RowMatch.init
  | rxByte b => exact Laws.RowMatch.rxByte b
  | send kind => exact Laws.RowMatch.send kind
  | txDone => exact Laws.RowMatch.txDone
  | handoff => exact Laws.RowMatch.handoff
  | reservedOp5 d => exact Laws.RowMatch.reservedOp5 d
  | reservedOp6 d => exact Laws.RowMatch.reservedOp6 d
  | reservedOp7 d => exact Laws.RowMatch.reservedOp7 d
  | markerCmd => exact Laws.RowMatch.markerCmd
  | markerAcl => exact Laws.RowMatch.markerAcl
  | markerSync => exact Laws.RowMatch.markerSync
  | markerEvt => exact Laws.RowMatch.markerEvt
  | markerOther b => exact Laws.RowMatch.markerOther b

end Encoding

/-- Settles O3: a request's op and data fields read back from its word (`opOf_mkWord`, `dataOf_mkWord`), and a wire byte
outside the four markers is MARKER_OTHER's (`decodeMarker_other`). -/
theorem decodeAfterEncode : Obligations.DecodeAfterEncode := by
  intro i hwf
  cases i with
  | init | txDone | handoff => simp [encode, decode, decodeWord, zeroDataOnly]
  | rxByte | send | reservedOp5 | reservedOp6 | reservedOp7 => simp [encode, decode, decodeWord]
  | markerCmd | markerAcl | markerSync | markerEvt => rfl
  | markerOther b => exact congrArg Except.ok (decodeMarker_other hwf)

/-- Settles O4: `encode_of_decodeWord` for a request word, `encode_decodeMarker` for a wire byte; the row is that of the
encoding (`encode_matchesRow`). -/
theorem encodeAfterDecode : Obligations.EncodeAfterDecode := by
  intro c i hdecode
  obtain ⟨hencode, hwf⟩ : encode i = c ∧ i.wellFormed = true := by
    cases c with
    | word w => exact encode_of_decodeWord hdecode
    | wire b =>
      obtain rfl : decodeMarker b = i := Except.ok.inj hdecode
      exact encode_decodeMarker b
  exact ⟨hencode, hwf, hencode ▸ encode_matchesRow hwf⟩

/-- Settles O1, by evaluating the decoder on the sixteen fixed words. -/
theorem specWordsDecode : Obligations.SpecWordsDecode := by
  unfold Obligations.SpecWordsDecode
  decide

/-- Settles O2. -/
theorem requestWordLayout : Obligations.RequestWordLayout :=
  fun op data => ⟨mkWord_toNat op data, opOf_mkWord op data, dataOf_mkWord op data⟩

end Sys2Proof

namespace Sys2Proof.Machine

/-- The reserved requests, which no agent issues, are refused (R72). -/
theorem exec_reserved {i : Instr} (h : agentOf i = none) (s : State) : ∃ why, exec i s = .next (s.refuse why) := by
  cases i with
  | reservedOp5 d => exact ⟨.reservedOp 5, rfl⟩
  | reservedOp6 d => exact ⟨.reservedOp 6, rfl⟩
  | reservedOp7 d => exact ⟨.reservedOp 7, rfl⟩
  | init | rxByte | send | txDone | handoff | markerCmd | markerAcl | markerSync | markerEvt | markerOther => cases h

/-- Settles O7: a reserved word decodes to a request that is refused (`exec_reserved`), and a word with forbidden data is
rejected by the decoder (`decodeWord_nonzeroData`); in both cases the refusal is all the step records. -/
theorem reservedAndNonzeroWordsRefused : Obligations.ReservedAndNonzeroWordsRefused := by
  intro s r rest w hpending hcode hop
  obtain ⟨why, hstep⟩ : ∃ why, step s = .next ((s.take r rest).refuse why) := by
    have hdecode : decode r.code = decodeWord w := congrArg decode hcode
    have hclass : (opOf w = 5 ∨ opOf w = 6 ∨ opOf w = 7) ∨ (opOf w = 0 ∨ opOf w = 3 ∨ opOf w = 4) ∧ dataOf w ≠ 0x00 := by
      simpa [or_assoc] using hop
    rcases hclass with hreserved | ⟨hexact, hdata⟩
    · obtain ⟨i, hi, hagent⟩ := decodeWord_reserved hreserved
      rw [step_cons hpending (hdecode.trans hi)]
      exact exec_reserved hagent _
    · exact ⟨_, step_refused hpending (hdecode.trans (decodeWord_nonzeroData hexact hdata))⟩
  exact ⟨[.refused why], by simp [silent], hstep⟩

end Sys2Proof.Machine

namespace Sys2Proof.Machine

/-! ### Runs of bytes, and a whole packet (41_receive.md R89 to R101) -/

theorem Memory.writeAll_append (m : Memory) (i : Nat) (x y : List Byte) :
    m.writeAll i (x ++ y) = (m.writeAll i x).writeAll (i + x.length) y := by
  induction x generalizing m i with
  | nil => rfl
  | cons b bs ih =>
    rw [List.cons_append, Memory.writeAll_cons, ih, Memory.writeAll_cons, List.length_cons, Nat.add_right_comm,
      Nat.add_assoc]

theorem Memory.writeAll_concat (m : Memory) (i : Nat) (x : List Byte) (b : Byte) :
    m.writeAll i (x ++ [b]) = (m.writeAll i x).write (i + x.length) b :=
  m.writeAll_append i x [b]

theorem ofNat_count_toNat {n : Nat} (h : n < 131072) : (BitVec.ofNat 17 n).toNat = n := by
  rw [BitVec.toNat_ofNat, Nat.mod_eq_of_lt h]

theorem ofNat_count_succ (n : Nat) (x : List Byte) (b : Byte) :
    BitVec.ofNat 17 (n + x.length) + 1 = BitVec.ofNat 17 (n + (x ++ [b]).length) := by
  rw [List.length_append, ← Nat.add_assoc, BitVec.ofNat_add (n + x.length)]
  rfl

section BytesRun

variable {s : State} {bytes : List Byte} {reqs rest : List Request}

theorem runSteps_one (s : State) : runSteps 1 s = step s := by
  change Sys2Proof.core.run 1 s = Sys2Proof.core.step s
  simp only [Host.Core.run]
  cases Sys2Proof.core.step s <;> rfl

/-- The state with another port and other requests still to come: all that taking a request changes. -/
def State.facing (s : State) (p : Port) (pending : List Request) : State := { s with port := p, pending := pending }

theorem State.facing_self (h : s.pending = rest) : s.facing s.port rest = s := by
  subst h
  rfl

/-- From the state `f x`, whatever the port and the requests still to come, the byte after `x` leads to `f (x ++ [b])`. -/
def ReceivesAlong (f : List Byte → State) (bytes : List Byte) : Prop :=
  ∀ x b y p q, bytes = x ++ b :: y → receiveByte b ((f x).facing p q) = .next ((f (x ++ [b])).facing p q)

theorem ReceivesAlong.tail {f : List Byte → State} {b : Byte} (h : ReceivesAlong f (b :: bytes)) :
    ReceivesAlong (fun x => f (b :: x)) bytes :=
  fun x c y p q hsplit => h (b :: x) c y p q (congrArg (b :: ·) hsplit)

/-- The induction over a run of bytes, packaged once. -/
theorem runSteps_bytes {f : List Byte → State} {p : Port} (hf : ReceivesAlong f bytes)
    (hreqs : List.Forall₂ presents reqs bytes) :
    ∃ p', runSteps reqs.length ((f []).facing p (reqs ++ rest)) = .next ((f bytes).facing p' rest) := by
  induction hreqs generalizing f p with
  | nil => exact ⟨p, rfl⟩
  | @cons r b reqs bytes hr _ ih =>
    have hfirst : step ((f []).facing p (r :: reqs ++ rest)) = .next ((f [b]).facing r.port (reqs ++ rest)) :=
      (step_presents rfl hr).trans (hf [] b bytes r.port (reqs ++ rest) rfl)
    obtain ⟨p', hrun⟩ := ih (p := r.port) hf.tail
    exact ⟨p', (runSteps_next reqs.length hfirst).trans hrun⟩

/-- The same with one byte more, which may do something else: the run answers what the receipt of that byte does. -/
theorem runSteps_bytes_last {f : List Byte → State} {p : Port} {b : Byte} (hf : ReceivesAlong f bytes)
    (hreqs : List.Forall₂ presents reqs (bytes ++ [b])) :
    ∃ p', p'.consumer = [] ∧
      runSteps reqs.length ((f []).facing p (reqs ++ rest)) = receiveByte b ((f bytes).facing p' rest) := by
  obtain ⟨firsts, lasts, rfl, hfirsts, hlasts⟩ := presents_append hreqs
  obtain ⟨r, _, hr, hnil, rfl⟩ := List.forall₂_cons_right_iff.1 hlasts
  obtain rfl := List.forall₂_nil_right_iff.1 hnil
  obtain ⟨p', hrun⟩ := runSteps_bytes (p := p) (rest := r :: rest) hf hfirsts
  have hlast : step ((f bytes).facing p' (r :: rest)) = receiveByte b ((f bytes).facing r.port rest) :=
    step_presents rfl hr
  refine ⟨r.port, hr.2, ?_⟩
  rw [List.length_append, List.append_assoc, ← hlast]
  exact (runSteps_append _ _ hrun).trans (runSteps_one _)

end BytesRun

section PacketRun

variable {s : State} {k : PacketKind} {hdr body packet : List Byte} {len : BitVec 16} {reqs rest : List Request}

/-- The detector after the marker of `k` and the header bytes `x` (R89, R93). -/
def State.withHeader (s : State) (k : PacketKind) (x : List Byte) : State :=
  { s with st := .dh, kind := k.marker, scr := s.scr.writeAll 0 (k.marker :: x), cnt := BitVec.ofNat 17 (1 + x.length) }

/-- The detector after the payload bytes `x` (R99). -/
def State.withPayload (s : State) (x : List Byte) : State :=
  { s with full := s.full.writeAll s.cnt.toNat x, cnt := BitVec.ofNat 17 (s.cnt.toNat + x.length) }

/-- The detector after a packet of kind `k` that it delivered (R101, R102). -/
def State.withDelivery (s : State) (k : PacketKind) (hdr packet : List Byte) (count : Count) : State :=
  { s with
    st := .dm, kind := 0x00, cnt := 0, exp := 0
    scr := s.scr.writeAll 0 (k.marker :: hdr), full := s.full.writeAll 0 packet
    trace := s.trace ++ [.event (.deliver s.cb k.marker packet count)] }

theorem acceptsMarker_marker (p : Params) (k : PacketKind) : acceptsMarker p k.marker = true := by
  simp [acceptsMarker, isKind, kindOf_marker]

/-- The marker of a kind, in DetectMarker. -/
theorem receiveByte_kindMarker (hi : s.init = true) (hst : s.st = .dm) (k : PacketKind) :
    receiveByte k.marker s = .next (s.withHeader k []) :=
  receiveByte_of_case (.accepted hi hst (acceptsMarker_marker _ k))

theorem headerStored_withHeader (b : Byte) (x : List Byte) (p : Port) (q : List Request) (hx : x.length ≤ 4) :
    headerStored b ((s.withHeader k x).facing p q) = (s.withHeader k (x ++ [b])).facing p q := by
  have hcnt : (BitVec.ofNat 17 (1 + x.length)).toNat = 0 + (k.marker :: x).length := by
    rw [ofNat_count_toNat (by omega)]
    simp [Nat.add_comm]
  have hscr : (s.scr.writeAll 0 (k.marker :: x)).write (BitVec.ofNat 17 (1 + x.length)).toNat b =
      s.scr.writeAll 0 (k.marker :: (x ++ [b])) := by
    rw [hcnt, ← Memory.writeAll_concat, List.cons_append]
  simp only [headerStored, State.withHeader, State.facing, hscr, ofNat_count_succ 1 x b]

/-- Header bytes short of the last are stored. -/
theorem receivesAlong_header (hi : s.init = true) {x : List Byte} (hx : x.length < headerSize k) :
    ReceivesAlong (s.withHeader k) x := by
  rintro y b z p q rfl
  have h4 := headerSize_le k
  simp only [List.length_append, List.length_cons] at hx
  have hcnt : ((s.withHeader k y).facing p q).cnt.toNat = 1 + y.length := ofNat_count_toNat (by omega)
  rw [receiveByte_header (s := (s.withHeader k y).facing p q) hi rfl (kindOf_marker k) (by omega) (by omega),
    headerStored_withHeader b y p q (by omega)]

/-- A run over a marker and a whole header answers what a complete header does (R94 to R98). -/
theorem runSteps_header (hi : s.init = true) (hst : s.st = .dm) (hsize : hdr.length = headerSize k)
    (hlen : payloadLen k hdr = some len) (hreqs : List.Forall₂ presents reqs (k.marker :: hdr))
    (hpending : s.pending = reqs ++ rest) :
    ∃ p, p.consumer = [] ∧ runSteps reqs.length s =
      if lengthOk s.params k len = true then
        if len = 0 then .next (delivered (headerAccepted k hdr len ((s.withHeader k hdr).facing p rest)) hdr)
        else .next (headerAccepted k hdr len ((s.withHeader k hdr).facing p rest))
      else .next ((s.withHeader k hdr).facing p rest).toDM := by
  have h2 := headerSize_pos k
  have h4 := headerSize_le k
  obtain ⟨r, later, hr, hlater, rfl⟩ := List.forall₂_cons_right_iff.1 hreqs
  have hmarker : step s = .next ((s.withHeader k []).facing r.port (later ++ rest)) :=
    (step_presents hpending hr).trans (receiveByte_kindMarker (s := s.take r (later ++ rest)) hi hst k)
  obtain rfl | ⟨x, b, rfl⟩ := List.eq_nil_or_concat' hdr
  · rw [List.length_nil] at hsize
    omega
  rw [List.length_append, List.length_singleton] at hsize
  obtain ⟨p, hp, hrun⟩ := runSteps_bytes_last (p := r.port) (rest := rest)
    (receivesAlong_header (s := s) (k := k) (x := x) hi (by omega)) hlater
  have hstored := headerStored_withHeader (s := s) (k := k) b x p rest (by omega)
  have hcnt : ((s.withHeader k x).facing p rest).cnt.toNat = headerSize k := by
    rw [← hsize, Nat.add_comm]
    exact ofNat_count_toNat (by omega)
  have hread : memRead (.scr s.resets) 5 (headerStored b ((s.withHeader k x).facing p rest)).scr 1 (headerSize k) =
      some (x ++ [b]) := by
    rw [hstored, ← hsize]
    have hwritten := memRead_writeAll (.scr s.resets) (size := 5) (s.scr.write 0 k.marker) 1 (v := x ++ [b])
      (by rw [List.length_append, List.length_singleton]; omega)
    rwa [List.length_append] at hwritten
  refine ⟨p, hp, ?_⟩
  rw [List.length_cons, runSteps_next _ hmarker, hrun,
    receiveByte_lastHeader (s := (s.withHeader k x).facing p rest) hi rfl (kindOf_marker k) hcnt hread hlen, hstored]
  rfl

theorem payloadStored_withPayload (b : Byte) (x : List Byte) (p : Port) (q : List Request)
    (hx : s.cnt.toNat + x.length < 131072) :
    payloadStored b ((s.withPayload x).facing p q) = (s.withPayload (x ++ [b])).facing p q := by
  have hfull : (s.full.writeAll s.cnt.toNat x).write (BitVec.ofNat 17 (s.cnt.toNat + x.length)).toNat b =
      s.full.writeAll s.cnt.toNat (x ++ [b]) := by
    rw [ofNat_count_toNat hx, ← Memory.writeAll_concat]
  simp only [payloadStored, State.withPayload, State.facing, hfull, ofNat_count_succ s.cnt.toNat x b]

theorem State.withPayload_facing (s : State) (x : List Byte) (p p' : Port) (q q' : List Request) :
    ((s.facing p q).withPayload x).facing p' q' = (s.withPayload x).facing p' q' := rfl

theorem State.withPayload_nil (s : State) : s.withPayload [] = s := by
  simp [State.withPayload]

/-- Payload bytes short of the last are stored. -/
theorem receivesAlong_payload (hi : s.init = true) (hst : s.st = .pip) (hfits : s.exp.toNat ≤ fullSize s.params)
    {x : List Byte} (hx : s.cnt.toNat + x.length < s.exp.toNat) : ReceivesAlong s.withPayload x := by
  rintro y b z p q rfl
  have hfull := fullSize_le s.params
  simp only [List.length_append, List.length_cons] at hx
  have hcnt : ((s.withPayload y).facing p q).cnt.toNat = s.cnt.toNat + y.length := ofNat_count_toNat (by omega)
  have hroom : ((s.withPayload y).facing p q).cnt.toNat < fullSize s.params := by omega
  have hmore : ((s.withPayload y).facing p q).cnt.toNat + 1 ≠ s.exp.toNat := by omega
  rw [receiveByte_payload (s := (s.withPayload y).facing p q) hi hst hroom hmore,
    payloadStored_withPayload b y p q (by omega)]

/-- A run over the rest of a packet delivers what is then in `FULL` (R99 to R101). -/
theorem runSteps_payload (hi : s.init = true) (hst : s.st = .pip) (hfits : s.exp.toNat ≤ fullSize s.params)
    (hbody : body ≠ []) (hcount : s.cnt.toNat + body.length = s.exp.toNat)
    (hread : memRead (.full s.resets) (fullSize s.params) (s.full.writeAll s.cnt.toNat body) 0 s.exp.toNat = some packet)
    (hreqs : List.Forall₂ presents reqs body) (hpending : s.pending = reqs ++ rest) :
    ∃ p, p.consumer = [] ∧
      runSteps reqs.length s = .next (delivered ((s.withPayload body).facing p rest) packet) := by
  have hfull := fullSize_le s.params
  obtain rfl | ⟨x, b, rfl⟩ := List.eq_nil_or_concat' body
  · exact absurd rfl hbody
  rw [List.length_append, List.length_singleton] at hcount
  obtain ⟨p, hp, hrun⟩ := runSteps_bytes_last (p := s.port) (rest := rest)
    (receivesAlong_payload hi hst hfits (x := x) (by omega)) hreqs
  rw [State.withPayload_nil, State.facing_self hpending] at hrun
  have hstored := payloadStored_withPayload (s := s) b x p rest (by omega)
  have hcnt : ((s.withPayload x).facing p rest).cnt.toNat = s.cnt.toNat + x.length := ofNat_count_toNat (by omega)
  have hroom : ((s.withPayload x).facing p rest).cnt.toNat < fullSize s.params := by omega
  have hlast : ((s.withPayload x).facing p rest).cnt.toNat + 1 = s.exp.toNat := by omega
  have hcase := ReceiveCase.completed (b := b) (s := (s.withPayload x).facing p rest) packet hi hst hroom hlast
    (by rw [hstored]; exact hread)
  rw [hstored] at hcase
  exact ⟨p, hp, hrun.trans (receiveByte_of_case hcase)⟩

/-- The detector after the marker of `k` and a header that passed its guard and declares `len` payload bytes (R96, R97). -/
def State.withAccepted (s : State) (k : PacketKind) (hdr : List Byte) (len : BitVec 16) : State :=
  { s.withHeader k hdr with
    exp := expLen k len, st := .pip, full := s.full.writeAll 0 hdr, cnt := BitVec.ofNat 17 hdr.length }

theorem headerAccepted_withHeader (s : State) (k : PacketKind) (hdr : List Byte) (len : BitVec 16) (p : Port)
    (q : List Request) :
    headerAccepted k hdr len ((s.withHeader k hdr).facing p q) = (s.withAccepted k hdr len).facing p q := by
  have hpred : BitVec.ofNat 17 (1 + hdr.length) - 1 = BitVec.ofNat 17 hdr.length := by
    rw [Nat.add_comm, BitVec.ofNat_add]
    exact BitVec.add_sub_cancel _ _
  simp only [headerAccepted, State.withHeader, State.withAccepted, State.facing, hpred]

theorem withAccepted_cnt (hsize : hdr.length = headerSize k) :
    (s.withAccepted k hdr len).cnt.toNat = hdr.length :=
  ofNat_count_toNat (by have := headerSize_le k; omega)

theorem withAccepted_full (hsize : hdr.length = headerSize k) (body : List Byte) :
    (s.withAccepted k hdr len).full.writeAll (s.withAccepted k hdr len).cnt.toNat body =
      s.full.writeAll 0 (hdr ++ body) := by
  rw [withAccepted_cnt hsize, Memory.writeAll_append, Nat.zero_add]
  rfl

theorem delivered_withPayload (hsize : hdr.length = headerSize k) {p : Port} (hp : p.consumer = []) (q : List Request) :
    delivered (((s.withAccepted k hdr len).withPayload body).facing p q) (hdr ++ body) =
      (s.withDelivery k hdr (hdr ++ body) (expLen k len)).facing p q := by
  rw [delivered_quiet _ hp, State.withDelivery, ← withAccepted_full (len := len) hsize body]
  rfl

/-- A run over a whole packet that passes its guard delivers it, byte for byte, and changes nothing else but the two
regions, the port and the requests it took. -/
theorem runSteps_packet (hi : s.init = true) (hst : s.st = .dm) (hsize : hdr.length = headerSize k)
    (hlen : payloadLen k hdr = some len) (hguard : lengthOk s.params k len = true) (hbody : body.length = len.toNat)
    (hreqs : List.Forall₂ presents reqs (k.marker :: hdr ++ body)) (hpending : s.pending = reqs ++ rest) :
    ∃ p, runSteps reqs.length s = .next ((s.withDelivery k hdr (hdr ++ body) (expLen k len)).facing p rest) := by
  obtain ⟨first, second, rfl, hfirst, hsecond⟩ := presents_append hreqs
  rw [List.append_assoc] at hpending
  obtain ⟨p, hp, hheader⟩ := runSteps_header hi hst hsize hlen hfirst hpending
  rw [if_pos hguard] at hheader
  by_cases hz : len = 0
  · obtain rfl : body = [] := by simpa [hz] using hbody
    obtain rfl := List.forall₂_nil_right_iff.1 hsecond
    rw [if_pos hz, delivered_quiet _ hp] at hheader
    rw [List.append_nil, List.append_nil]
    exact ⟨p, hheader⟩
  · rw [if_neg hz, headerAccepted_withHeader] at hheader
    have hcount : (hdr ++ body).length = (expLen k len).toNat := by
      rw [List.length_append, expLen_toNat, hsize, hbody]
    have hfits := expLen_le_fullSize hlen hguard
    have hread := memRead_writeAll (.full s.resets) (size := fullSize s.params) s.full 0 (v := hdr ++ body) (by omega)
    rw [hcount, ← withAccepted_full (len := len) hsize body] at hread
    have hrest : (s.withAccepted k hdr len).cnt.toNat + body.length = (expLen k len).toNat := by
      rw [withAccepted_cnt hsize, ← hcount, List.length_append]
    have hnonempty : body ≠ [] := by
      rintro rfl
      exact hz (BitVec.eq_of_toNat_eq hbody.symm)
    obtain ⟨p', hp', hpayload⟩ := runSteps_payload (s := (s.withAccepted k hdr len).facing p (second ++ rest))
      hi rfl hfits hnonempty hrest hread hsecond rfl
    refine ⟨p', ?_⟩
    rw [List.length_append, runSteps_append _ _ hheader, hpayload, State.withPayload_facing,
      delivered_withPayload hsize hp' rest]

/-- SEND of a typed payload whose buffer is granted and whose write is accepted: the buffer then holds the frame. -/
theorem execSend_frame {kind : Byte} {h : BufHandle} (hi : s.init = true) (halloc : s.port.ans.alloc = some h)
    (hfresh : isLive h s = false) (hwrite : s.port.ans.write = .ok)
    (htyped : s.port.ops.payload.length = s.port.ops.len.toNat) :
    ∃ t, exec (.send kind) s = .next t ∧
      findBuf h t.bufs = some (Memory.writeAll [] 0 (kind :: s.port.ops.payload)) := by
  have hframe := frame_typed kind s.port.ops.payload
  rw [htyped] at hframe
  refine ⟨_, execSend_of_case (.submitted h _ hi halloc hfresh hframe hwrite), ?_⟩
  exact (findBuf_put h h _ s.bufs).trans (if_pos rfl)

end PacketRun
/-- Settles O55: the buffer holds the marker and the payload (`execSend_frame`), which are the bytes of a whole packet, and a
run over those delivers it (`runSteps_packet`). -/
theorem sendReceiveRoundTrip : Obligations.SendReceiveRoundTrip := by
  intro s k hdr body len h hi halloc hfresh hwrite hpayload htyped hsize hlen hguard hbody
  obtain ⟨t, hsend, hbuf⟩ := execSend_frame (kind := k.marker) hi halloc hfresh hwrite htyped
  refine ⟨t, _, k.marker :: s.port.ops.payload, hsend, hbuf, htyped ▸ memRead_frame k.marker s.port.ops.payload, ?_⟩
  intro u reqs rest hui hust hparams hreqs hpending
  rw [hpayload] at hreqs ⊢
  obtain ⟨p, hrun⟩ := runSteps_packet hui hust hsize hlen (hparams ▸ hguard) hbody hreqs hpending
  exact ⟨_, hrun, rfl, rfl, rfl⟩

end Sys2Proof.Machine

namespace Sys2Proof.Machine

/-! ### The catalog's predicates, shapes and lengths (40_catalog.md R79 to R84) -/

theorem exists_packetKind {P : PacketKind → Prop} : (∃ k, P k) ↔ P .command ∨ P .acl ∨ P .event := by
  constructor
  · rintro ⟨_ | _ | _, h⟩
    · exact .inl h
    · exact .inr (.inl h)
    · exact .inr (.inr h)
  · rintro (h | h | h)
    · exact ⟨_, h⟩
    · exact ⟨_, h⟩
    · exact ⟨_, h⟩

theorem isKind_iff_exists_marker {b : Byte} : isKind b = true ↔ ∃ k : PacketKind, b = k.marker := by
  simp only [isKind, Option.isSome_iff_exists, kindOf_eq_some]

theorem acceptsMarker_iff {p : Params} {b : Byte} :
    acceptsMarker p b = true ↔ isKind b = true ∨ (p.scoLegacy = true ∧ b = 0x03) := by
  simp only [acceptsMarker, Bool.or_eq_true, Bool.and_eq_true, beq_iff_eq]

theorem lengthOk_acl {p : Params} {len : BitVec 16} : lengthOk p .acl len = true ↔ len.toNat ≤ p.aclMax.val :=
  decide_eq_true_iff

theorem lengthOk_event {p : Params} {len : BitVec 16} :
    lengthOk p .event len = true ↔ p.evtGuardEn = false ∨ len.toNat ≤ p.evtMax.toNat := by
  simp only [lengthOk, Bool.or_eq_true, Bool.not_eq_true', decide_eq_true_eq]

theorem byte_zeroExtend_toNat (b : Byte) : (b.zeroExtend 16).toNat = b.toNat :=
  BitVec.toNat_setWidth_of_le (by decide)

/-- The two bytes of `le16` occupy disjoint bits, so their union is a sum; no bit of `hi` is shifted out. -/
theorem le16_toNat (lo hi : Byte) : (le16 lo hi).toNat = lo.toNat + 256 * hi.toNat := by
  have hdisjoint := Nat.two_pow_add_eq_or_of_lt (i := 8) lo.isLt hi.toNat
  have hhi : (hi.zeroExtend 16 <<< 8).toNat = 2 ^ 8 * hi.toNat := by
    rw [BitVec.toNat_shiftLeft, byte_zeroExtend_toNat, Nat.shiftLeft_eq, Nat.mul_comm, Nat.mod_eq_of_lt (by omega)]
  rw [le16, BitVec.toNat_or, byte_zeroExtend_toNat, hhi, Nat.or_comm, ← hdisjoint, Nat.add_comm]

/-- Settles O44: a byte is a kind when it is the marker of one of the three kinds (`isKind_iff_exists_marker`), and the
other two predicates are stated over it. -/
theorem markerPredicates : Obligations.MarkerPredicates := by
  intro p b
  exact ⟨isKind_iff_exists_marker.trans exists_packetKind, acceptsMarker_iff, Iff.rfl⟩

/-- Settles O45: `kindOf` tests the three markers in order, and a length of one byte is zero-extended while that of an
ACL-Data header is the sum of its bytes (`le16_toNat`). -/
theorem headerShapesAndLengths : Obligations.HeaderShapesAndLengths := by
  constructor
  · intro b
    simp only [kindOf, apply_ite (Option.map headerSize), Option.map_some, Option.map_none, headerSize]
  · intro k h0 h1 h2 h3
    refine ⟨?_, ?_, ?_⟩ <;> intro hk <;> obtain rfl := Option.some.inj hk
    · exact congrArg some (byte_zeroExtend_toNat h2)
    · exact congrArg some (le16_toNat h2 h3)
    · exact congrArg some (byte_zeroExtend_toNat h1)

/-- Settles O46, a conjunct for each kind. -/
theorem lengthGuards : Obligations.LengthGuards := by
  intro p len
  exact ⟨rfl, lengthOk_acl, lengthOk_event⟩

/-- Settles O47: the sum does not wrap (`expLen_toNat`), so each range is `H` plus the range of the declared length, which
is 8 bits for a Command or an Event (`payloadLen_small`) and what the guard admits otherwise. -/
theorem expectedLengthIsExact : Obligations.ExpectedLengthIsExact := by
  intro p k hdr len hlen
  refine ⟨expLen_toNat k len, ?_, fun hguard => ⟨expLen_le_fullSize hlen hguard, fullSize_le p⟩⟩
  cases k with
  | command =>
    have hsmall := payloadLen_small hlen (by decide)
    simp only [expLen_toNat, headerSize]
    omega
  | acl =>
    intro hguard
    have hmax := lengthOk_acl.1 hguard
    simp only [expLen_toNat, headerSize]
    omega
  | event =>
    have hsmall := payloadLen_small hlen (by decide)
    have hmax (hen : p.evtGuardEn = true) (hguard : lengthOk p .event len = true) : len.toNat ≤ p.evtMax.toNat :=
      (lengthOk_event.1 hguard).resolve_left (by simp [hen])
    simp only [expLen_toNat, headerSize]
    exact ⟨by omega, by omega, fun hen hguard => Nat.add_le_add_left (hmax hen hguard) 2⟩

end Sys2Proof.Machine

namespace Sys2Proof.Machine

/-! ### One byte, detector state by detector state (41_receive.md R87 to R101) -/

section OneByte

variable {b : Byte} {s : State} {k : PacketKind}

theorem acceptsMarker_iff_byte {p : Params} :
    acceptsMarker p b = true ↔ b = 0x01 ∨ b = 0x02 ∨ b = 0x04 ∨ (b = 0x03 ∧ p.scoLegacy = true) := by
  rw [acceptsMarker_iff, isKind_iff_exists_marker, exists_packetKind, or_assoc, or_assoc, and_comm]
  rfl

/-- The detector encoding no rule writes (R88). -/
theorem receiveByte_unused (b : Byte) (hi : s.init = true) (hst : s.st = .unused) :
    receiveByte b s = .fault .unusedDetState := by
  unfold receiveByte
  rw [if_pos hi, hst]

theorem expLen_zero (k : PacketKind) : expLen k 0 = BitVec.ofNat 17 (headerSize k) := BitVec.add_zero _

/-- The last header byte leaves `cnt` at `H(kind)`. -/
theorem headerAccepted_headerStored (hc : s.cnt.toNat = headerSize k) (hdr : List Byte) (len : BitVec 16) :
    headerAccepted k hdr len (headerStored b s) =
      { s with scr := s.scr.write s.cnt.toNat b, exp := expLen k len, st := .pip, full := s.full.writeAll 0 hdr,
               cnt := BitVec.ofNat 17 (headerSize k) } := by
  have hcnt : BitVec.ofNat 17 (headerSize k) = (headerAccepted k hdr len (headerStored b s)).cnt := by
    rw [headerAccepted_cnt, ← hc, BitVec.ofNat_toNat, BitVec.setWidth_eq]
  rw [hcnt]

theorem memRead_getElem? {sp : Space} {size i n j : Nat} {m : Memory} {v : List Byte}
    (h : memRead sp size m i n = some v) (hj : j < n) : v[j]? = some (m.read sp (i + j)) := by
  obtain ⟨-, rfl⟩ := memRead_eq_some.1 h
  rw [List.getElem?_map, List.getElem?_range hj, Option.map_some]

/-- A dispatch in the words of the statements: what the consumer leaves is refusals and requests, and nothing where it
asks nothing (R101, R105). -/
theorem delivered_afterDispatch (s : State) (bytes : List Byte) :
    ∃ l later, silent l ∧ (s.port.consumer = [] → l = [] ∧ later = s.pending) ∧
      delivered s bytes = afterDispatch s bytes s.exp l later := by
  refine ⟨(s.port.consumer.filter Call.isRxByte).map fun _ => .refused .rxDuringDeliver,
    laterRequests s.port.consumer ++ s.pending, ?_, ?_, ?_⟩
  · intro o ho
    obtain ⟨_, -, rfl⟩ := List.mem_map.1 ho
    exact ⟨_, rfl⟩
  · intro hnone
    rw [hnone]
    exact ⟨rfl, rfl⟩
  · simp only [afterDispatch, State.toDM, State.consumerReturns, State.emit, laterRequests, List.append_assoc,
      List.singleton_append]

end OneByte

/-- Settles O15: each instruction receives the byte it presents, and before INIT that byte is lost. -/
theorem byteBeforeInitIsLost : Obligations.ByteBeforeInitIsLost := by
  intro i b s hb hi
  rw [exec_presented hb]
  exact receiveByte_uninit b hi

/-- Settles O16: the bytes listed are those the detector accepts (`acceptsMarker_iff_byte`). -/
theorem markerStartsHeader : Obligations.MarkerStartsHeader := by
  intro i b s hb hi hst hmarker
  rw [exec_presented hb]
  exact receiveByte_of_case (.accepted hi hst (acceptsMarker_iff_byte.2 hmarker))

/-- Settles O17: the bytes left are those the detector does not accept (`acceptsMarker_iff_byte`). -/
theorem nonMarkerDiscarded : Obligations.NonMarkerDiscarded := by
  intro i b s hb hi hst h1 h2 h4 h3
  have hrejected : acceptsMarker s.params b = false := by
    rw [Bool.eq_false_iff, Ne, acceptsMarker_iff_byte]
    rintro (h | h | h | ⟨h, hlegacy⟩)
    · exact h1 h
    · exact h2 h
    · exact h4 h
    · exact Bool.noConfusion ((h3 h).symm.trans hlegacy)
  rw [exec_presented hb]
  exact receiveByte_of_case (.discarded hi hst hrejected)

/-- Settles O21: no arm of the receive operation is for the encoding 3. -/
theorem unusedDetStateFaults : Obligations.UnusedDetStateFaults := by
  intro i b s hb hi hst
  rw [exec_presented hb]
  exact receiveByte_unused b hi hst

/-- Settles O19, a case of the receive operation for each clause; `cnt` after the last header byte is
`headerAccepted_headerStored`, and the header-only dispatch is `delivered_afterDispatch`. -/
theorem headerByte : Obligations.HeaderByte := by
  intro i b s k hb hi hst hk
  have h4 := headerSize_le k
  rw [exec_presented hb]
  refine ⟨fun hc => receiveByte_header hi hst hk (by omega) (by omega), fun hdr len hc hread hlen => ⟨?_, ?_, ?_⟩⟩
  · intro hguard
    exact receiveByte_of_case (.aborted k hdr len hi hst hk hc hread hlen hguard)
  · intro hguard hz
    rw [← headerAccepted_headerStored hc]
    exact receiveByte_of_case (.begun k hdr len hi hst hk hc hread hlen hguard hz)
  · intro hguard hz
    obtain ⟨l, later, hsilent, hquiet, hdelivered⟩ :=
      delivered_afterDispatch (headerAccepted k hdr len (headerStored b s)) hdr
    refine ⟨l, later, hsilent, hquiet, ?_⟩
    rw [receiveByte_of_case (.headerOnly k hdr len hi hst hk hc hread hlen hguard hz), hdelivered, hz, ← expLen_zero]
    rfl

/-- Settles O20: the packet delivered is `FULL` with the last byte written at `cnt`, read from 0, so the bytes before it
are those that stood there. -/
theorem payloadByte : Obligations.PayloadByte := by
  intro i b s hb hi hst hfits
  rw [exec_presented hb]
  refine ⟨fun hc => receiveByte_payload hi hst (by omega) (by omega), fun hc => ?_⟩
  obtain ⟨bytes, hread⟩ : ∃ bytes,
      memRead (.full s.resets) (fullSize s.params) (payloadStored b s).full 0 s.exp.toNat = some bytes :=
    ⟨_, memRead_of_le _ _ (by omega)⟩
  obtain ⟨l, later, hsilent, hquiet, hdelivered⟩ := delivered_afterDispatch (payloadStored b s) bytes
  refine ⟨bytes, l, later, memRead_length hread, fun j hj => ?_, ?_, hsilent, hquiet, ?_⟩
  · rw [memRead_getElem? hread (by omega), Nat.zero_add, Memory.read_write_other _ _ _ (by omega)]
  · rw [memRead_getElem? hread (by omega), Nat.zero_add, Memory.read_write_same]
  · rw [receiveByte_of_case (.completed bytes hi hst (by omega) hc hread), hdelivered]
    rfl

/-! ### Which steps deliver (41_receive.md R86, R101, R105) -/

section Deliveries

variable {b : Byte} {s t : State} {i : Instr}

/-- A byte that delivers ends a packet, delivers that one alone, and leaves what its consumer asked. -/
theorem ReceiveCase.delivers (h : ReceiveCase b s t) (hn : deliveries t.trace ≠ deliveries s.trace) :
    (s.init = true ∧ (s.st = .dh ∨ s.st = .pip) ∧ t.st = .dm) ∧ deliveries t.trace = deliveries s.trace + 1 ∧
      t.refused = (s.refused || s.port.consumer.any Call.isRxByte) ∧
      t.pending = laterRequests s.port.consumer ++ s.pending := by
  cases h with
  | lost | discarded | accepted | absorbed | header | aborted | begun | payload => exact absurd rfl hn
  | headerOnly k hdr len hi hst => exact ⟨⟨hi, .inl hst, rfl⟩, deliveries_delivered _ _, rfl, rfl⟩
  | completed bytes hi hst => exact ⟨⟨hi, .inr hst, rfl⟩, deliveries_delivered _ _, rfl, rfl⟩

theorem refuse_deliveries (s : State) (why : RefuseReason) :
    deliveries (s.refuse why).trace = deliveries s.trace := by
  rw [State.refuse_trace, deliveries_append]
  rfl

theorem SendCase.deliveries_eq {kind : Byte} (h : SendCase kind s t) : deliveries t.trace = deliveries s.trace := by
  cases h with
  | beforeInit | stale => exact refuse_deliveries s _
  | outOfMemory | failed | submitted => simp [deliveries]

theorem TxDoneCase.deliveries_eq (h : TxDoneCase s t) : deliveries t.trace = deliveries s.trace := by
  cases h with
  | unknown => exact refuse_deliveries s _
  | released => simp [deliveries]

theorem HandoffCase.deliveries_eq (h : HandoffCase s t) : deliveries t.trace = deliveries s.trace := by
  cases h with
  | invalid | forwarded => simp [deliveries]

theorem InitCase.deliveries_eq (h : InitCase s t) : deliveries t.trace = deliveries s.trace := by
  cases h with
  | noCallback => exact refuse_deliveries s _
  | again | failed | initialized => simp [deliveries]

/-- Only a byte delivers. -/
theorem exec_delivers (h : exec i s = .next t) (hn : deliveries t.trace ≠ deliveries s.trace) :
    ∃ b, presentedByte i = some b ∧ ReceiveCase b s t := by
  cases exec_cases h with
  | receive b hb hc => exact ⟨b, hb, hc⟩
  | send _ _ hc => exact absurd hc.deliveries_eq hn
  | txDone _ hc => exact absurd hc.deliveries_eq hn
  | handoff _ hc => exact absurd hc.deliveries_eq hn
  | init _ hc => exact absurd hc.deliveries_eq hn
  | reserved op _ hc => exact absurd (hc ▸ refuse_deliveries s _) hn

/-- A step that delivers takes a byte that ends a packet, and delivers that packet alone. -/
theorem step_delivers (h : step s = .next t) (hn : deliveries t.trace ≠ deliveries s.trace) :
    deliveries t.trace = deliveries s.trace + 1 ∧
      ∃ r rest i b, s.pending = r :: rest ∧ decode r.code = .ok i ∧ presentedByte i = some b ∧ s.init = true ∧
        (s.st = .dh ∨ s.st = .pip) ∧ t.st = .dm := by
  rcases step_next h with ⟨-, rfl⟩ | ⟨r, rest, i, hpending, hdecode, hexec⟩ | ⟨r, rest, e, -, -, rfl⟩
  · exact absurd rfl hn
  · obtain ⟨b, hb, hc⟩ := exec_delivers (s := s.take r rest) hexec hn
    obtain ⟨hends, hone, -, -⟩ := hc.delivers hn
    exact ⟨hone, r, rest, i, b, hpending, hdecode, hb, hends⟩
  · exact absurd (refuse_deliveries (s.take r rest) _) hn

theorem presentedByte_decodeMarker (b : Byte) : presentedByte (decodeMarker b) = some b := by
  unfold decodeMarker
  split_ifs with h1 h2 h3 h4
  · exact congrArg some h1.symm
  · exact congrArg some h2.symm
  · exact congrArg some h3.symm
  · exact congrArg some h4.symm
  · rfl

/-- A call whose instruction presents no byte is no RX_BYTE: op 1 and every wire byte decode to bytes. -/
theorem not_isRxByte_of_decode {c : Call} (hd : decode c.code = .ok i) (hb : presentedByte i = none) :
    c.isRxByte = false := by
  unfold Call.isRxByte
  cases hc : c.code with
  | wire b =>
    rw [hc] at hd
    cases hd
    cases (presentedByte_decodeMarker b).symm.trans hb
  | word w =>
    rw [hc] at hd
    rw [beq_eq_false_iff_ne]
    intro hop
    simp only [decode, decodeWord, hop] at hd
    cases hd
    cases hb

theorem mem_laterRequests {cs : List Call} {r : Request} :
    r ∈ laterRequests cs ↔ ∃ c ∈ cs, c.isRxByte = false ∧ c.toRequest = r := by
  simp [laterRequests, and_assoc]

end Deliveries

/-- Settles O38: the record only grows (`step_refusalsMarked`), and by one delivery at most (`step_delivers`). -/
theorem atMostOneDeliveryPerStep : Obligations.AtMostOneDeliveryPerStep := by
  intro s t hstep
  obtain ⟨-, l, hl, -⟩ := step_refusalsMarked hstep
  have hcount : deliveries t.trace = deliveries s.trace + deliveries l := by rw [hl, deliveries_append]
  refine ⟨l, hl, ?_, fun hone => ?_⟩
  · by_cases hn : deliveries t.trace = deliveries s.trace
    · omega
    · obtain ⟨hnext, -⟩ := step_delivers hstep hn
      omega
  · exact (step_delivers hstep (by omega)).2

/-- Settles O22, from what a byte that delivers leaves (`ReceiveCase.delivers`). -/
theorem deliverConsumerRequests : Obligations.DeliverConsumerRequests := by
  intro i b s t hb hexec hn
  rw [exec_presented hb] at hexec
  obtain ⟨-, hone, hrefused, hpending⟩ := (receiveByte_cases hexec).delivers hn
  have hlater {c : Call} (hc : c ∈ s.port.consumer) (hno : c.isRxByte = false) : c.toRequest ∈ t.pending :=
    hpending ▸ List.mem_append_left _ (mem_laterRequests.2 ⟨c, hc, hno, rfl⟩)
  refine ⟨fun hrx => ?_, hone, fun r hr => ?_, fun r hr => hpending ▸ List.mem_append_right _ hr, fun c hc hd => ?_⟩
  · rw [hrefused, List.any_eq_true.2 hrx, Bool.or_true]
  · rw [hpending, List.mem_append, mem_laterRequests] at hr
    exact hr.symm
  · rcases hd with ⟨kind, hd⟩ | hd
    · exact hlater hc (not_isRxByte_of_decode hd rfl)
    · exact hlater hc (not_isRxByte_of_decode hd rfl)

/-! ### The legacy dead end (41_receive.md R92) -/

section DeadEnd

variable {s t : State} {i : Instr}

/-- DetectHeader with the marker of Synchronous-Data. -/
def inDeadEnd (s : State) : Prop := s.init = true ∧ s.st = .dh ∧ s.kind = 0x03

theorem InitCase.keeps_detector (h : InitCase s t) (hi : s.init = true) : sameDetector t s ∧ t.init = true := by
  cases h with
  | noCallback | again => exact ⟨⟨rfl, rfl, rfl, rfl, rfl, rfl⟩, hi⟩
  | failed _ _ hno | initialized _ _ hno => exact absurd (hi.symm.trans hno) Bool.noConfusion

theorem sameEngine.detector (h : sameEngine t s) : sameDetector t s ∧ t.init = s.init := by
  obtain ⟨-, hinit, hst, hkind, hcnt, hexp, hscr, hfull, -⟩ := h
  exact ⟨⟨hst, hkind, hcnt, hexp, hscr, hfull⟩, hinit⟩

theorem sameReceiveView.detector (h : sameReceiveView t s) : sameDetector t s ∧ t.init = s.init := by
  obtain ⟨-, -, -, hinit, -, hdetector⟩ := h.parts
  exact ⟨hdetector, hinit⟩

/-- No request moves the detector out of the dead end: a byte is absorbed, and after INIT no other request writes it. -/
theorem exec_keeps_deadEnd (hs : inDeadEnd s) (h : exec i s = .next t) : sameDetector t s ∧ t.init = s.init := by
  obtain ⟨hi, hst, hk⟩ := hs
  cases exec_cases h with
  | receive b _ hc =>
    cases (receiveByte_of_case hc).symm.trans (receiveByte_sync b hi hst hk)
    exact (sameReceiveView.refl s).detector
  | send _ _ hc => exact hc.frame.1.detector
  | txDone _ hc => exact hc.frame.1.detector
  | handoff _ hc => exact hc.frame.1.detector
  | init _ hc =>
    obtain ⟨hdetector, hinit⟩ := hc.keeps_detector hi
    exact ⟨hdetector, hinit.trans hi.symm⟩
  | reserved _ _ hc => exact hc ▸ (refuse_sameEngine s _).detector

theorem step_keeps_deadEnd (hs : inDeadEnd s) (h : step s = .next t) :
    inDeadEnd t ∧ t.cnt = s.cnt ∧ t.scr = s.scr ∧ t.full = s.full ∧ deliveries t.trace = deliveries s.trace := by
  have ⟨hi, hst, hk⟩ := hs
  have hsame : sameDetector t s ∧ t.init = s.init := by
    rcases step_next h with ⟨-, rfl⟩ | ⟨r, rest, i, -, -, hexec⟩ | ⟨r, rest, e, -, -, rfl⟩
    · exact (sameReceiveView.refl _).detector
    · exact exec_keeps_deadEnd (s := s.take r rest) hs hexec
    · exact (refuse_sameEngine (s.take r rest) _).detector
  obtain ⟨⟨hst', hkind, hcnt, -, hscr, hfull⟩, hinit⟩ := hsame
  have hstays : t.st = .dh := hst'.trans hst
  refine ⟨⟨hinit.trans hi, hstays, hkind.trans hk⟩, hcnt, hscr, hfull, ?_⟩
  by_contra hn
  obtain ⟨-, _, _, _, _, -, -, -, -, -, hdm⟩ := step_delivers h hn
  exact DetState.noConfusion (hdm.symm.trans hstays)

theorem runSteps_keeps_deadEnd {n : Nat} (hs : inDeadEnd s) (h : runSteps n s = .next t) :
    inDeadEnd t ∧ t.cnt = s.cnt ∧ t.scr = s.scr ∧ t.full = s.full ∧ deliveries t.trace = deliveries s.trace := by
  induction n generalizing s with
  | zero =>
    cases h
    exact ⟨hs, rfl, rfl, rfl, rfl⟩
  | succ n ih =>
    obtain ⟨u, hstep, hrun⟩ := runSteps_succ h
    obtain ⟨hu, hcnt, hscr, hfull, hdel⟩ := step_keeps_deadEnd hs hstep
    obtain ⟨ht, hcnt', hscr', hfull', hdel'⟩ := ih hu hrun
    exact ⟨ht, hcnt'.trans hcnt, hscr'.trans hscr, hfull'.trans hfull, hdel'.trans hdel⟩

end DeadEnd

/-- Settles O18: a byte is absorbed, and every step keeps the dead end (`step_keeps_deadEnd`), hence every run does. -/
theorem legacyDeadEnd : Obligations.LegacyDeadEnd := by
  constructor
  · intro i b s hb hi hst hk
    rw [exec_presented hb]
    exact receiveByte_sync b hi hst hk
  · intro n s t hi hst hk hrun
    obtain ⟨⟨-, hst', hk'⟩, hrest⟩ := runSteps_keeps_deadEnd ⟨hi, hst, hk⟩ hrun
    exact ⟨hst', hk', hrest⟩

/-! ### Runs of bytes (95_test_vectors.md L1-E) -/

/-- Settles O52: `runSteps_packet` gives the whole state the run ends in. -/
theorem wholePacketIsDelivered : Obligations.WholePacketIsDelivered := by
  intro s k hdr payload len reqs rest hi hst hsize hlen hguard hbody hreqs hpending
  obtain ⟨p, hrun⟩ := runSteps_packet hi hst hsize hlen hguard hbody hreqs hpending
  exact ⟨_, hrun, rfl, rfl, rfl, rfl, rfl, rfl, hi, rfl, rfl, ⟨rfl, rfl⟩, rfl⟩

/-- Settles O53: the complete header is dropped (`runSteps_header` with the guard false). -/
theorem oversizedPacketIsDropped : Obligations.OversizedPacketIsDropped := by
  intro s k hdr len reqs rest hi hst hsize hlen hguard hreqs hpending
  obtain ⟨p, -, hrun⟩ := runSteps_header hi hst hsize hlen hreqs hpending
  rw [hguard, if_neg Bool.false_ne_true] at hrun
  exact ⟨_, hrun, rfl, rfl, rfl, rfl, rfl, rfl, hi⟩

/-- Bytes that are no accepted marker leave DetectMarker as it is, whatever came before (41_receive.md R91). -/
theorem receivesAlong_garbage {s : State} {bytes : List Byte} (hi : s.init = true) (hst : s.st = .dm)
    (hgarbage : ∀ b ∈ bytes, acceptsMarker s.params b = false) : ReceivesAlong (fun _ => s) bytes := by
  rintro x b y p q rfl
  have hb : acceptsMarker s.params b = false := hgarbage b (by simp)
  exact receiveByte_of_case (s := s.facing p q) (.discarded hi hst hb)

/-- Settles O54, a run of bytes along which the state stays the same. -/
theorem garbageRunIsDiscarded : Obligations.GarbageRunIsDiscarded := by
  intro s bytes reqs rest hi hst hgarbage hreqs hpending
  obtain ⟨p, hrun⟩ := runSteps_bytes (p := s.port) (rest := rest) (receivesAlong_garbage hi hst hgarbage) hreqs
  rw [State.facing_self hpending] at hrun
  exact ⟨_, hrun, rfl⟩

end Sys2Proof.Machine

namespace Sys2Proof.Machine

/-! ### The send path, request by request (42_send.md R107 to R115) -/

section SendPath

variable {s : State} {i : Instr}

/-- A refused request in the words of the statements: the mark, and a record with no event and no result (R13). -/
theorem exists_silent_of_refuse {why : RefuseReason} (h : exec i s = .next (s.refuse why)) :
    ∃ l, silent l ∧ exec i s = .next { s with refused := true, trace := s.trace ++ l } :=
  ⟨[.refused why], by simp [silent], h⟩

/-- The frame of a payload of as many bytes as its length operand says (R110). -/
theorem frame_of_length {payload : List Byte} {n : Nat} (kind : Byte) (h : payload.length = n) :
    frame kind payload n = some (Memory.writeAll [] 0 (kind :: payload)) :=
  h ▸ frame_typed kind payload

/-- A buffer put and dropped again leaves every other buffer as it was. -/
theorem findBuf_drop_put_other {h x : BufHandle} (hne : x ≠ h) (m : Memory) (bs : List (BufHandle × Memory)) :
    findBuf x (dropBuf h (putBuf h m bs)) = findBuf x bs := by
  rw [findBuf_drop_other hne, findBuf_put, if_neg hne.symm]

end SendPath

/-- Settles O27, the case `SendCase.submitted` with the frame of the typed payload. -/
theorem sendSubmitsFrame : Obligations.SendSubmitsFrame := by
  intro kind s h hi halloc hfresh htyped hwrite
  refine ⟨_, _, execSend_of_case (.submitted h _ hi halloc hfresh (frame_of_length kind htyped) hwrite),
    ?_, fun _ => mem_insertHandle, ?_, htyped ▸ memRead_frame kind s.port.ops.payload, fun x hx => ?_⟩
  · simp [State.answer, State.emit, State.store]
  · exact (findBuf_put h h _ s.bufs).trans (if_pos rfl)
  · exact (findBuf_put h x _ s.bufs).trans (if_neg hx.symm)

/-- Settles O28, the case `SendCase.failed`: the buffer is stored and released in the same step. -/
theorem sendSubmissionFailureReleases : Obligations.SendSubmissionFailureReleases := by
  intro kind s h hi halloc hfresh htyped hwrite
  refine ⟨_, execSend_of_case (.failed h _ hi halloc hfresh (frame_of_length kind htyped) hwrite),
    ?_, findBuf_drop_same h _, fun x hx => findBuf_drop_put_other hx _ s.bufs⟩
  simp [State.answer, State.emit, State.store, State.release]

/-- Settles O25, the case `SendCase.beforeInit`. -/
theorem sendBeforeInitRefused : Obligations.SendBeforeInitRefused := fun _ _ hi =>
  exists_silent_of_refuse (execSend_of_case (.beforeInit hi))

/-- Settles O26, the case `SendCase.outOfMemory`, whose two outputs are recorded one after the other. -/
theorem sendOutOfMemory : Obligations.SendOutOfMemory := by
  intro kind s hi halloc
  rw [execSend_of_case (.outOfMemory hi halloc)]
  simp [State.answer, State.emit]

/-- Settles O30, the case `TxDoneCase.released`. -/
theorem completionReleasesBuffer : Obligations.CompletionReleasesBuffer := fun s hm =>
  ⟨_, execTxDone_of_case (.released hm), rfl, fun _ => mem_eraseHandle, findBuf_drop_same _ s.bufs,
    fun _ hx => findBuf_drop_other hx s.bufs⟩

/-- Settles O31, the case `TxDoneCase.unknown`. -/
theorem unknownCompletionRefused : Obligations.UnknownCompletionRefused := fun _ hm =>
  exists_silent_of_refuse (execTxDone_of_case (.unknown hm))

end Sys2Proof.Machine

namespace Sys2Proof.Machine

/-! ### The downward hand-off (43_handoff.md R119 to R123) -/

section Handoff

variable {s : State} {m : Byte} {rest body : List Byte}

/-- The markers of the hand-off (R79): 0x03 is not one of them. -/
theorem handoffValid_iff_byte : handoffValid m = true ↔ m = 0x01 ∨ m = 0x02 ∨ m = 0x04 :=
  isKind_iff_exists_marker.trans exists_packetKind

/-- The bytes after the first, read whole. -/
theorem seqRead_tail (m : Byte) (body : List Byte) : seqRead (m :: body) 1 body.length = some body :=
  seqRead_eq_some.2 ⟨.inr (Nat.add_comm 1 _).le, List.take_length⟩

/-- No marker byte: nothing is forwarded or freed (R119). -/
theorem execHandoff_of_zero (hn : s.port.ops.n = 0) : exec .handoff s = .next (s.answer .transportError) := by
  simp [exec, execHandoff, hn]

/-- A rejected marker gives the answer of `n = 0`, whatever `n` is (R119). -/
theorem execHandoff_of_invalid (hbytes : s.port.ops.hbBytes = m :: rest) (hm : handoffValid m = false) :
    exec .handoff s = .next (s.answer .transportError) := by
  simp [exec, execHandoff, hbytes, hm]

/-- A packet whose bytes `n` counts is forwarded and freed, at every `n` (log 23). -/
theorem execHandoff_of_valid (hbytes : s.port.ops.hbBytes = m :: body) (hn : s.port.ops.n.toNat = 1 + body.length)
    (hm : handoffValid m = true) :
    exec .handoff s = .next { s with
      trace := s.trace ++ [.event (.receive m body (s.port.ops.n.toNat - 1)), .event (.free s.port.ops.hb),
        .result (.upper s.port.ans.receive)] } := by
  have hread : seqRead s.port.ops.hbBytes 1 (s.port.ops.n.toNat - 1) = some body := by
    rw [hbytes, hn, Nat.add_sub_cancel_left, seqRead_tail]
  have hpos : s.port.ops.n.toNat ≠ 0 := by omega
  change execHandoff s = _
  unfold execHandoff
  rw [if_neg hpos, hread, hbytes]
  simp only [hm, if_true, State.emit, State.answer, List.append_assoc, List.cons_append, List.nil_append]

end Handoff

/-- Settles O35: the same outputs are added in both states (`execHandoff_of_samePort`), and the hand-off leaves the number
of deliveries (`HandoffCase.deliveries_eq`), so what it added delivers nothing. -/
theorem handoffIsIndependent : Obligations.HandoffIsIndependent := by
  intro s u t hops hans h
  obtain ⟨l, rfl, hu⟩ := execHandoff_of_samePort hops.symm hans.symm h
  have hcount : deliveries (s.trace ++ l) = deliveries s.trace := (execHandoff_cases h).deliveries_eq
  rw [deliveries_append] at hcount
  exact ⟨l, rfl, hu, Nat.add_eq_left.1 hcount⟩

/-- Settles O33: a buffer with no marker byte, and one whose marker is none of the three (`handoffValid_iff_byte`). -/
theorem handoffInvalidMarker : Obligations.HandoffInvalidMarker := by
  rintro s (hn | ⟨m, rest, hbytes, hcommand, hacl, hevent⟩)
  · exact execHandoff_of_zero hn
  · have hinvalid : ¬ handoffValid m = true := fun hm =>
      (handoffValid_iff_byte.1 hm).elim hcommand (·.elim hacl hevent)
    exact execHandoff_of_invalid hbytes (Bool.eq_false_iff.2 hinvalid)

/-- Settles O34: the bound on `n` is not needed, and the three markers are the valid ones (`handoffValid_iff_byte`). -/
theorem handoffForwardsAndFrees : Obligations.HandoffForwardsAndFrees := fun _ _ _ hbytes hn _ hm =>
  execHandoff_of_valid hbytes hn (handoffValid_iff_byte.2 hm)

end Sys2Proof.Machine

namespace Sys2Proof.Machine

/-! ### The lifecycle of an initialized engine (44_lifecycle.md R131) -/

section Lifecycle

variable {b : Byte} {s t : State} {i : Instr}

/-- The output asks for the channel (R127). -/
def Output.isAcquire : Output → Bool
  | .event (.acquire _) => true
  | _ => false

theorem Output.isAcquire_iff {o : Output} : o.isAcquire = true ↔ ∃ cfg, o = .event (.acquire cfg) := by
  constructor
  · intro h
    unfold Output.isAcquire at h
    split at h
    · exact ⟨_, rfl⟩
    · cases h
  · rintro ⟨_, rfl⟩
    rfl

/-- How often a record of outputs asked for the channel. -/
def acquisitions (outputs : List Output) : Nat := outputs.countP Output.isAcquire

theorem acquisitions_append (a l : List Output) : acquisitions (a ++ l) = acquisitions a + acquisitions l :=
  List.countP_append

theorem acquisitions_eq_zero {l : List Output} : acquisitions l = 0 ↔ ∀ cfg, Output.event (.acquire cfg) ∉ l := by
  rw [acquisitions, List.countP_eq_zero]
  constructor
  · exact fun h _ hmem => h _ hmem rfl
  · intro h o hmem hacquire
    obtain ⟨cfg, rfl⟩ := Output.isAcquire_iff.1 hacquire
    exact h cfg hmem

/-- `init` and `cb` stay as they are, and the channel is not asked for. -/
def LifecycleKept (s t : State) : Prop :=
  t.init = s.init ∧ t.cb = s.cb ∧ acquisitions t.trace = acquisitions s.trace

theorem LifecycleKept.refl (s : State) : LifecycleKept s s := ⟨rfl, rfl, rfl⟩

theorem LifecycleKept.refuse (s : State) (why : RefuseReason) : LifecycleKept s (s.refuse why) :=
  ⟨rfl, rfl, by simp [acquisitions, Output.isAcquire]⟩

theorem LifecycleKept.answer (s : State) (r : Result) : LifecycleKept s (s.answer r) :=
  ⟨rfl, rfl, by simp [acquisitions, Output.isAcquire]⟩

/-- A dispatch outputs a delivery and refusals. -/
theorem acquisitions_delivered (s : State) (bytes : List Byte) :
    acquisitions (delivered s bytes).trace = acquisitions s.trace := by
  have hnone : acquisitions (dispatchOutputs s bytes) = 0 :=
    acquisitions_eq_zero.2 (by simp [dispatchOutputs])
  rw [delivered_eq_adding]
  exact (acquisitions_append s.trace _).trans (by rw [hnone, Nat.add_zero])

theorem ReceiveCase.lifecycleKept (h : ReceiveCase b s t) : LifecycleKept s t := by
  obtain ⟨-, hinit, hcb, -⟩ := h.frame
  refine ⟨hinit, hcb, ?_⟩
  cases h with
  | lost | discarded | accepted | absorbed | header | aborted | begun | payload => rfl
  | headerOnly | completed => exact acquisitions_delivered _ _

theorem SendCase.lifecycleKept {kind : Byte} (h : SendCase kind s t) : LifecycleKept s t := by
  obtain ⟨-, -, -, hinit, hcb, -⟩ := h.frame.1.parts
  refine ⟨hinit, hcb, ?_⟩
  cases h with
  | beforeInit | stale | outOfMemory | failed | submitted => simp [acquisitions, Output.isAcquire]

theorem TxDoneCase.lifecycleKept (h : TxDoneCase s t) : LifecycleKept s t := by
  obtain ⟨-, -, -, hinit, hcb, -⟩ := h.frame.1.parts
  refine ⟨hinit, hcb, ?_⟩
  cases h with
  | unknown | released => simp [acquisitions, Output.isAcquire]

theorem HandoffCase.lifecycleKept (h : HandoffCase s t) : LifecycleKept s t := by
  obtain ⟨⟨-, hinit, -, -, -, -, -, -, hcb, -⟩, -⟩ := h.frame
  refine ⟨hinit, hcb, ?_⟩
  cases h with
  | invalid | forwarded => simp [acquisitions, Output.isAcquire]

/-- INIT asks for the channel only while the engine is not initialized (R128, R130). -/
theorem InitCase.lifecycleKept (h : InitCase s t) (hs : s.init = true) : LifecycleKept s t := by
  cases h with
  | noCallback => exact .refuse s _
  | again => exact .answer s _
  | failed _ _ hi | initialized _ _ hi => exact Bool.noConfusion (hs.symm.trans hi)

theorem exec_keeps_lifecycle (h : exec i s = .next t) (hs : s.init = true) : LifecycleKept s t := by
  cases exec_cases h with
  | receive _ _ hc => exact hc.lifecycleKept
  | send _ _ hc => exact hc.lifecycleKept
  | txDone _ hc => exact hc.lifecycleKept
  | handoff _ hc => exact hc.lifecycleKept
  | init _ hc => exact hc.lifecycleKept hs
  | reserved op _ hc => exact hc ▸ .refuse s _

theorem step_keeps_lifecycle (h : step s = .next t) (hs : s.init = true) : LifecycleKept s t := by
  rcases step_next h with ⟨-, rfl⟩ | ⟨r, rest, i, -, -, hexec⟩ | ⟨r, rest, e, -, -, rfl⟩
  · exact .refl t
  · exact exec_keeps_lifecycle (s := s.take r rest) hexec hs
  · exact .refuse (s.take r rest) _

end Lifecycle

/-- Settles O13: the record only grows (`step_refusalsMarked`), and by no acquisition (`step_keeps_lifecycle`). -/
theorem lifecycleIsOneWay : Obligations.LifecycleIsOneWay := by
  intro s t hstep hs
  obtain ⟨hinit, hcb, hcount⟩ := step_keeps_lifecycle hstep hs
  obtain ⟨-, l, hl, -⟩ := step_refusalsMarked hstep
  rw [hl, acquisitions_append] at hcount
  exact ⟨hinit.trans hs, hcb, l, hl, acquisitions_eq_zero.1 (Nat.add_eq_left.1 hcount)⟩

/-! ### INIT, check by check (R126 to R129) -/

/-- Settles O9, the case `InitCase.initialized`, whose two outputs are recorded one after the other. -/
theorem initBindsCallback : Obligations.InitBindsCallback := by
  intro s c hc hi ha
  rw [execInit_of_case (.initialized c hc hi ha)]
  simp [State.answer, State.emit, State.toDM]

/-- Settles O10, the case `InitCase.again`. -/
theorem initAgainChangesNothing : Obligations.InitAgainChangesNothing := fun _ c hc hi =>
  execInit_of_case (.again c hc hi)

/-- Settles O11, the case `InitCase.failed`; it leaves `init` false, so the next INIT may be in the case
`InitCase.initialized`. -/
theorem initAcquireFailureRetainsNothing : Obligations.InitAcquireFailureRetainsNothing := by
  intro s c hc hi ha
  refine ⟨_, execInit_of_case (.failed c hc hi ha), ?_, fun p d hd hok => ?_⟩
  · simp [State.answer, State.emit]
  · exact ⟨_, execInit_of_case (.initialized d hd hi hok), rfl, rfl⟩

/-- Settles O12, the case `InitCase.noCallback`. -/
theorem initWithoutCallbackRefused : Obligations.InitWithoutCallbackRefused := fun _ hc =>
  exists_silent_of_refuse (execInit_of_case (.noCallback hc))

end Sys2Proof.Machine

namespace Sys2Proof.Machine

/-! ### What the Deliver consumer's requests leave (41_receive.md R105; log 5, log 16) -/

section ConsumerOrder

variable {b : Byte} {s t : State}

/-- A dispatch whose consumer issues an RX_BYTE records its refusal. -/
theorem refusal_mem_delivered (hrx : ∃ c ∈ s.port.consumer, c.isRxByte = true) (bytes : List Byte) :
    Output.refused .rxDuringDeliver ∈ (delivered s bytes).trace := by
  obtain ⟨c, hc, hbyte⟩ := hrx
  have hout : Output.refused .rxDuringDeliver ∈ dispatchOutputs s bytes :=
    List.mem_cons_of_mem _ (List.mem_map.2 ⟨c, List.mem_filter.2 ⟨hc, hbyte⟩, rfl⟩)
  rw [delivered_eq_adding]
  exact List.mem_append_right _ hout

/-- Where a byte delivers, the refusals of its consumer's RX_BYTEs are in the record. -/
theorem ReceiveCase.refusal_mem_trace (h : ReceiveCase b s t) (hn : deliveries t.trace ≠ deliveries s.trace)
    (hrx : ∃ c ∈ s.port.consumer, c.isRxByte = true) : Output.refused .rxDuringDeliver ∈ t.trace := by
  cases h with
  | lost | discarded | accepted | absorbed | header | aborted | begun | payload => exact absurd rfl hn
  | headerOnly k hdr len => exact refusal_mem_delivered (s := headerAccepted k hdr len (headerStored b s)) hrx hdr
  | completed bytes => exact refusal_mem_delivered (s := payloadStored b s) hrx bytes

end ConsumerOrder

/-- Settles O23: the pending requests are those `ReceiveCase.delivers` names, and the other clauses on them say what that
list holds (`mem_laterRequests`). -/
theorem deliverConsumerOrder : Obligations.DeliverConsumerOrder := by
  intro i b s t hb hexec hn
  rw [exec_presented hb] at hexec
  have hcase := receiveByte_cases hexec
  obtain ⟨-, -, -, hpending⟩ := hcase.delivers hn
  refine ⟨hpending, fun r => ?_, fun hnone => ?_, hcase.refusal_mem_trace hn⟩
  · rw [hpending, List.mem_append, mem_laterRequests]
    exact or_comm
  · rw [hpending, hnone]
    rfl

/-! ### Table words and the reserved rows (30_encoding.md R72; log 15) -/

/-- A table word that gives an instruction is a code the decoder accepts. -/
theorem decode_of_decodeTableWord {nbits w : Nat} {i : Instr} (h : decodeTableWord nbits w = some i) :
    decode (codeOfTable nbits w) = .ok i := by
  obtain ⟨-, hsome⟩ := Option.ite_none_right_eq_some.1 h
  cases hdecode : decode (codeOfTable nbits w) with
  | ok j =>
    rw [hdecode] at hsome
    exact congrArg Except.ok (Option.some.inj hsome)
  | error e =>
    rw [hdecode] at hsome
    cases hsome

/-- Settles O6: the word is the next request and decodes to `i`; taking it again leaves the state it was presented to. -/
theorem fetchedWordRunsFirst : Obligations.FetchedWordRunsFirst := fun s nbits w _ h =>
  step_cons (State.withFetchWord_pending s nbits w) (decode_of_decodeTableWord h)

/-- Settles O8: each reserved row is one refusal, whose reason is its op code. -/
theorem reservedRowsRefused : Obligations.ReservedRowsRefused := fun _ _ => ⟨rfl, rfl, rfl⟩

/-! ### The remaining choices of the model: a stale handle, a long buffer, re-instantiation -/

/-- Settles O29, the case `SendCase.stale`. -/
theorem sendStaleHandleRefused : Obligations.SendStaleHandleRefused := fun _ _ h hi halloc hlive =>
  execSend_of_case (.stale h hi halloc hlive)

/-- Settles O56: the premise that `n` is above 65536 is not needed, since `execHandoff_of_valid` holds at every `n`. -/
theorem handoffForwardsLongBuffer : Obligations.HandoffForwardsLongBuffer := fun _ _ _ hbytes hn _ hm =>
  execHandoff_of_valid hbytes hn (handoffValid_iff_byte.2 hm)

/-- A re-instantiated engine is idle with nothing outstanding; the buffers it no longer tracks stay a set. -/
theorem resetEngine_keeps_inv {s : State} (hI : MachineInv s) : MachineInv (resetEngine s) := by
  obtain ⟨-, hsorted, hwf, -⟩ := hI.buffers
  exact .of_idle rfl ⟨rfl, rfl, rfl⟩ ⟨fun _ => ⟨rfl, rfl⟩, nofun⟩ ⟨.nil, .nil, nofun, nofun⟩
    ⟨.nil, hsorted, hwf, nofun⟩

/-- Settles O43: nothing is outstanding after it, so a completion is unknown (O31), and `init` is false, so SEND is refused
(O25). -/
theorem reinstantiationForgets : Obligations.ReinstantiationForgets := by
  intro s
  refine ⟨⟨rfl, rfl, rfl, rfl, rfl, fun i => Memory.read_nil _ i, fun i => Memory.read_nil _ i, rfl, rfl, fun _ => rfl⟩,
    resetEngine_keeps_inv, fun p => ?_, fun kind => ?_⟩
  · exact unknownCompletionRefused { resetEngine s with port := p } List.not_mem_nil
  · exact sendBeforeInitRefused kind (resetEngine s) (State.resetEngine_init s)

end Sys2Proof.Machine
